-- ==== Sys2Proof/Word.lean ====
section
/-! DEFINITION. The word types of the CHIP-8 CORE block (rules R8, R21, R24, R72). Every value is
unsigned; no operation of this hardware is signed (R8). -/

namespace Sys2Proof

/-- An 8-bit value: a register, a memory byte, an immediate kk (R21, R20, R72). -/
abbrev Byte := BitVec 8

/-- A 16-bit value: pc, I, a stack slot, an instruction word (R24, R26, R28, R70). -/
abbrev Word := BitVec 16

/-- A 4-bit value: a nibble of an instruction word (R71). -/
abbrev Nibble := BitVec 4

/-- A 12-bit address field nnn (R71). -/
abbrev Addr := BitVec 12

/-- A register index 0x0..0xF (R21, R72). -/
abbrev RegIx := Fin 16

/-- zext_16(v): widen to 16 bits with zeros (R9). -/
abbrev zext16 {n : Nat} (v : BitVec n) : Word := v.setWidth 16

end Sys2Proof
end

