-- ==== Sys2Proof/Config.lean ====
section
/-! DEFINITION. The implementation parameters of rule R6, with the constraint of rule R7 and the
defaults of rules R6 and R251, the key byte values of rule R6, and the free random bytes of rule R176.
The parameters are "taken by the model as arguments" (R6): a `Config` is carried by the state, so a
claim about every state holds for every placement that rule R7 allows and for every font. The fixed
numbers stand as numerals in the model: MEM_SIZE 4096, PROGRAM_BASE 0x200, ROM_MAX 3584, FB_BYTES 256,
STACK_SLOTS 16, STACK_LIMIT 12, and 80 font bytes (R6, R33). -/

namespace Sys2Proof

/-- KEY_PRESSED (R6, R32). -/
abbrev keyPressed : Byte := 0xFF

/-- KEY_RELEASED (R6, R32). -/
abbrev keyReleased : Byte := 0x00

namespace Config

/-- Rule R7: the framebuffer and the two key bytes lie inside the interpreter-reserved range
[0x000, 0x200), are pairwise disjoint, and do not overlap the font bytes [0x000, 0x050). -/
abbrev Placement (fbBase keyPressedAddr keyValueAddr : Nat) : Prop :=
  (80 ≤ fbBase ∧ fbBase + 256 ≤ 0x200) ∧
  (80 ≤ keyPressedAddr ∧ keyPressedAddr < 0x200) ∧
  (80 ≤ keyValueAddr ∧ keyValueAddr < 0x200) ∧
  keyPressedAddr ≠ keyValueAddr ∧
  (keyPressedAddr < fbBase ∨ fbBase + 256 ≤ keyPressedAddr) ∧
  (keyValueAddr < fbBase ∨ fbBase + 256 ≤ keyValueAddr)

end Config

/-- The parameters of rules R6 and R251 that the source does not fix, with rule R7's constraint, so
that a placement the spec forbids cannot be written down. -/
structure Config where
  /-- FB_BASE: base of the 256-byte framebuffer (R6, R31). -/
  fbBase : Nat
  /-- KEY_PRESSED_ADDR: address of the press/release byte (R6, R32). -/
  keyPressedAddr : Nat
  /-- KEY_VALUE_ADDR: address of the key-value byte (R6, R32). -/
  keyValueAddr : Nat
  /-- FONT: the 80 glyph bytes, glyph d at 5d..5d+4 (R251). -/
  font : Vector Byte 80
  /-- Rule R7. -/
  placed : Config.Placement fbBase keyPressedAddr keyValueAddr
deriving DecidableEq, Repr

namespace Config

/-- The default FONT, one row a glyph, digits 0 to F (R251). PRESUMED: the spec marks the bytes as
general knowledge (D12); log entry 2. -/
def defaultGlyphs : List (List Byte) :=
  [[0xF0, 0x90, 0x90, 0x90, 0xF0],
   [0x20, 0x60, 0x20, 0x20, 0x70],
   [0xF0, 0x10, 0xF0, 0x80, 0xF0],
   [0xF0, 0x10, 0xF0, 0x10, 0xF0]] ++
  [[0x90, 0x90, 0xF0, 0x10, 0x10],
   [0xF0, 0x80, 0xF0, 0x10, 0xF0],
   [0xF0, 0x80, 0xF0, 0x90, 0xF0],
   [0xF0, 0x10, 0x20, 0x40, 0x40]] ++
  [[0xF0, 0x90, 0xF0, 0x90, 0xF0],
   [0xF0, 0x90, 0xF0, 0x10, 0xF0],
   [0xF0, 0x90, 0xF0, 0x90, 0x90],
   [0xE0, 0x90, 0xE0, 0x90, 0xE0]] ++
  [[0xF0, 0x80, 0x80, 0x80, 0xF0],
   [0xE0, 0x90, 0x90, 0x90, 0xE0],
   [0xF0, 0x80, 0xF0, 0x80, 0xF0],
   [0xF0, 0x80, 0xF0, 0x80, 0x80]]

/-- The default FONT as its 80 bytes (R251). -/
def defaultFont : Vector Byte 80 := ⟨defaultGlyphs.flatten.toArray, by decide⟩

/-- The default parameters of rule R6. DESIGN CHOICE of the spec (D11, D12); log entries 1 and 2. -/
def default : Config where
  fbBase := 0x100
  keyPressedAddr := 0x050
  keyValueAddr := 0x051
  font := defaultFont
  placed := by decide

/-- What a byte of memory holds after reset, before any ROM byte is copied (R36, R250): FONT at
0x000..0x04F, zero elsewhere. It is what an address that memory does not list reads as. -/
def resetByte (c : Config) (a : Nat) : Byte :=
  if h : a < 80 then c.font[a] else 0x00

/-- The random bytes the host supplies, one for each tick it issues through `step` (R176, D19). A FREE
VALUE: it has no body, so nothing can be proved of its values; log entry 5. -/
opaque randomByte : Nat → Byte

end Config

end Sys2Proof
end

