-- ==== Sys2Proof/Syntax.lean ====
section
/-! DEFINITION. The 34 instructions of the opcode map (rule R75, spec/opcode_table.json), one
constructor a row, in the table's order, with the operand fields that row lists (R73). Every field has
exactly the width of rule R71. SHR and SHL keep their y, which they ignore, so that the word can be
rebuilt (R76, R79). -/

namespace Sys2Proof

/-- A decoded instruction (R73, R75). -/
inductive Instr where
  /-- 00E0 CLS (R200). -/
  | cls
  /-- 00EE RET (R102). -/
  | ret
  /-- 1nnn JP nnn (R100). -/
  | jp (nnn : Addr)
  /-- 2nnn CALL nnn (R101). -/
  | call (nnn : Addr)
  /-- 3xkk SE Vx, kk (R104). -/
  | seImm (x : RegIx) (kk : Byte)
  /-- 4xkk SNE Vx, kk (R105). -/
  | sneImm (x : RegIx) (kk : Byte)
  /-- 5xy0 SE Vx, Vy (R106). -/
  | seReg (x y : RegIx)
  /-- 6xkk LD Vx, kk (R120). -/
  | ldImm (x : RegIx) (kk : Byte)
  /-- 7xkk ADD Vx, kk (R121). -/
  | addImm (x : RegIx) (kk : Byte)
  /-- 8xy0 LD Vx, Vy (R122). -/
  | ldReg (x y : RegIx)
  /-- 8xy1 OR Vx, Vy (R123). -/
  | orReg (x y : RegIx)
  /-- 8xy2 AND Vx, Vy (R124). -/
  | andReg (x y : RegIx)
  /-- 8xy3 XOR Vx, Vy (R125). -/
  | xorReg (x y : RegIx)
  /-- 8xy4 ADD Vx, Vy (R127). -/
  | addReg (x y : RegIx)
  /-- 8xy5 SUB Vx, Vy (R128). -/
  | sub (x y : RegIx)
  /-- 8xy6 SHR Vx, y ignored (R129, R76). -/
  | shr (x y : RegIx)
  /-- 8xy7 SUBN Vx, Vy (R130). -/
  | subn (x y : RegIx)
  /-- 8xyE SHL Vx, y ignored (R131, R76). -/
  | shl (x y : RegIx)
  /-- 9xy0 SNE Vx, Vy (R107). -/
  | sneReg (x y : RegIx)
  /-- Annn LD I, nnn (R150). -/
  | ldI (nnn : Addr)
  /-- Bnnn JP V0, nnn (R103). -/
  | jpV0 (nnn : Addr)
  /-- Cxkk RND Vx, kk (R175). -/
  | rnd (x : RegIx) (kk : Byte)
  /-- Dxyn DRW Vx, Vy, n (R203). -/
  | drw (x y : RegIx) (n : Nibble)
  /-- Ex9E SKP Vx (R183). -/
  | skp (x : RegIx)
  /-- ExA1 SKNP Vx (R184). -/
  | sknp (x : RegIx)
  /-- Fx07 LD Vx, DT (R173). -/
  | ldVxDt (x : RegIx)
  /-- Fx0A LD Vx, K (R185). -/
  | ldVxK (x : RegIx)
  /-- Fx15 LD DT, Vx (R171). -/
  | ldDtVx (x : RegIx)
  /-- Fx18 LD ST, Vx (R172). -/
  | ldStVx (x : RegIx)
  /-- Fx1E ADD I, Vx (R151). -/
  | addI (x : RegIx)
  /-- Fx29 LD F, Vx (R155). -/
  | ldF (x : RegIx)
  /-- Fx33 LD B, Vx (R154). -/
  | ldB (x : RegIx)
  /-- Fx55 LD [I], Vx (R152). -/
  | storeRegs (x : RegIx)
  /-- Fx65 LD Vx, [I] (R153). -/
  | loadRegs (x : RegIx)
deriving DecidableEq, Repr

end Sys2Proof
end

