-- ==== Sys2Proof/Decode.lean ====
section
/-! DEFINITION. The decoder of rules R70 to R78: a pure, total function from a 16-bit word to one
instruction or an error by name, the same over bytes, and the encoder of rule R79. -/

namespace Sys2Proof

/-- Why a decoder refuses. -/
inductive DecodeError where
  /-- The word matches no row of the opcode map (R73, R77); it carries the word (R222). -/
  | unknownOpcode (w : Word)
  /-- Fewer than the two bytes of an instruction word are left (R70). -/
  | truncated
deriving DecidableEq, Repr

/-- The fields of an instruction word (R11, R71). -/
def fieldA (w : Word) : Nibble := w.extractLsb' 12 4
@[inherit_doc fieldA] def fieldX (w : Word) : RegIx := (w.extractLsb' 8 4).toFin
@[inherit_doc fieldA] def fieldY (w : Word) : RegIx := (w.extractLsb' 4 4).toFin
@[inherit_doc fieldA] def fieldN (w : Word) : Nibble := w.extractLsb' 0 4
@[inherit_doc fieldA] def fieldKk (w : Word) : Byte := w.extractLsb' 0 8
@[inherit_doc fieldA] def fieldNnn (w : Word) : Addr := w.extractLsb' 0 12

/-- Family 0x8: the last nibble selects the operation (R73). -/
def decodeAlu (w : Word) : Except DecodeError Instr :=
  match fieldN w with
  | 0x0#4 => .ok (.ldReg (fieldX w) (fieldY w))
  | 0x1#4 => .ok (.orReg (fieldX w) (fieldY w))
  | 0x2#4 => .ok (.andReg (fieldX w) (fieldY w))
  | 0x3#4 => .ok (.xorReg (fieldX w) (fieldY w))
  | 0x4#4 => .ok (.addReg (fieldX w) (fieldY w))
  | 0x5#4 => .ok (.sub (fieldX w) (fieldY w))
  | 0x6#4 => .ok (.shr (fieldX w) (fieldY w))
  | 0x7#4 => .ok (.subn (fieldX w) (fieldY w))
  | 0xE#4 => .ok (.shl (fieldX w) (fieldY w))
  | _ => .error (.unknownOpcode w)

/-- Family 0xE: the low byte selects the operation (R73). -/
def decodeKey (w : Word) : Except DecodeError Instr :=
  match fieldKk w with
  | 0x9E#8 => .ok (.skp (fieldX w))
  | 0xA1#8 => .ok (.sknp (fieldX w))
  | _ => .error (.unknownOpcode w)

/-- Family 0xF: the low byte selects the operation (R73). -/
def decodeMisc (w : Word) : Except DecodeError Instr :=
  match fieldKk w with
  | 0x07#8 => .ok (.ldVxDt (fieldX w))
  | 0x0A#8 => .ok (.ldVxK (fieldX w))
  | 0x15#8 => .ok (.ldDtVx (fieldX w))
  | 0x18#8 => .ok (.ldStVx (fieldX w))
  | 0x1E#8 => .ok (.addI (fieldX w))
  | 0x29#8 => .ok (.ldF (fieldX w))
  | 0x33#8 => .ok (.ldB (fieldX w))
  | 0x55#8 => .ok (.storeRegs (fieldX w))
  | 0x65#8 => .ok (.loadRegs (fieldX w))
  | _ => .error (.unknownOpcode w)

/-- Decode(w) (R73, R74, R77): the first nibble selects the family. -/
def decode (w : Word) : Except DecodeError Instr :=
  match fieldA w with
  | 0x0#4 =>
    if w = 0x00E0 then .ok .cls
    else if w = 0x00EE then .ok .ret
    else .error (.unknownOpcode w)
  | 0x1#4 => .ok (.jp (fieldNnn w))
  | 0x2#4 => .ok (.call (fieldNnn w))
  | 0x3#4 => .ok (.seImm (fieldX w) (fieldKk w))
  | 0x4#4 => .ok (.sneImm (fieldX w) (fieldKk w))
  | 0x5#4 =>
    if fieldN w = 0x0 then .ok (.seReg (fieldX w) (fieldY w)) else .error (.unknownOpcode w)
  | 0x6#4 => .ok (.ldImm (fieldX w) (fieldKk w))
  | 0x7#4 => .ok (.addImm (fieldX w) (fieldKk w))
  | 0x8#4 => decodeAlu w
  | 0x9#4 =>
    if fieldN w = 0x0 then .ok (.sneReg (fieldX w) (fieldY w)) else .error (.unknownOpcode w)
  | 0xA#4 => .ok (.ldI (fieldNnn w))
  | 0xB#4 => .ok (.jpV0 (fieldNnn w))
  | 0xC#4 => .ok (.rnd (fieldX w) (fieldKk w))
  | 0xD#4 => .ok (.drw (fieldX w) (fieldY w) (fieldN w))
  | 0xE#4 => decodeKey w
  | 0xF#4 => decodeMisc w
  | _ => .error (.unknownOpcode w)

/-- The big-endian word of two bytes, the first from the lower address (R52, R70). -/
def wordOfBytes (hi lo : Byte) : Word := hi ++ lo

/-- The bytes of a word as memory holds them, lower address first (R52). -/
def bytesOfWord (w : Word) : List Byte := [w.extractLsb' 8 8, w.extractLsb' 0 8]

/-- The decoder over a list of bytes: one instruction and the bytes after it (R70). -/
def decodeBytes : List Byte → Except DecodeError (Instr × List Byte)
  | hi :: lo :: rest =>
    match decode (wordOfBytes hi lo) with
    | .ok i => .ok (i, rest)
    | .error e => .error e
  | _ => .error .truncated

/-- nnn form: `match OR nnn` (R79). -/
def encodeNnn (a : Nibble) (nnn : Addr) : Word := a ++ nnn

/-- kk form: `match OR (x << 8) OR kk` (R79). -/
def encodeKk (a : Nibble) (x : RegIx) (kk : Byte) : Word := a ++ (BitVec.ofFin x : Nibble) ++ kk

/-- Nibble form: `match OR (x << 8) OR (y << 4) OR n` (R79). -/
def encodeXyn (a : Nibble) (x y : RegIx) (n : Nibble) : Word :=
  a ++ (BitVec.ofFin x : Nibble) ++ (BitVec.ofFin y : Nibble) ++ n

/-- The word of an instruction (R75, R79). -/
def encode : Instr → Word
  | .cls => 0x00E0
  | .ret => 0x00EE
  | .jp nnn => encodeNnn 0x1 nnn
  | .call nnn => encodeNnn 0x2 nnn
  | .seImm x kk => encodeKk 0x3 x kk
  | .sneImm x kk => encodeKk 0x4 x kk
  | .seReg x y => encodeXyn 0x5 x y 0x0
  | .ldImm x kk => encodeKk 0x6 x kk
  | .addImm x kk => encodeKk 0x7 x kk
  | .ldReg x y => encodeXyn 0x8 x y 0x0
  | .orReg x y => encodeXyn 0x8 x y 0x1
  | .andReg x y => encodeXyn 0x8 x y 0x2
  | .xorReg x y => encodeXyn 0x8 x y 0x3
  | .addReg x y => encodeXyn 0x8 x y 0x4
  | .sub x y => encodeXyn 0x8 x y 0x5
  | .shr x y => encodeXyn 0x8 x y 0x6
  | .subn x y => encodeXyn 0x8 x y 0x7
  | .shl x y => encodeXyn 0x8 x y 0xE
  | .sneReg x y => encodeXyn 0x9 x y 0x0
  | .ldI nnn => encodeNnn 0xA nnn
  | .jpV0 nnn => encodeNnn 0xB nnn
  | .rnd x kk => encodeKk 0xC x kk
  | .drw x y n => encodeXyn 0xD x y n
  | .skp x => encodeKk 0xE x 0x9E
  | .sknp x => encodeKk 0xE x 0xA1
  | .ldVxDt x => encodeKk 0xF x 0x07
  | .ldVxK x => encodeKk 0xF x 0x0A
  | .ldDtVx x => encodeKk 0xF x 0x15
  | .ldStVx x => encodeKk 0xF x 0x18
  | .addI x => encodeKk 0xF x 0x1E
  | .ldF x => encodeKk 0xF x 0x29
  | .ldB x => encodeKk 0xF x 0x33
  | .storeRegs x => encodeKk 0xF x 0x55
  | .loadRegs x => encodeKk 0xF x 0x65

/-- The word that the low `nbits` bits of the number `w` stand for: an instruction is one 16-bit
word, bit 0 least significant (R8, R70). -/
def tableWord (nbits w : Nat) : Word := BitVec.ofNat 16 (w % 2 ^ nbits)

/-- The instruction the decoder reads from an instruction whose bits, numbered as
spec/opcode_table.json numbers them, are `w`: the word is laid out big-endian and given to the byte
decoder. -/
def decodeTableWord (nbits w : Nat) : Option Instr :=
  match decodeBytes (bytesOfWord (tableWord nbits w)) with
  | .ok (i, _) => some i
  | .error _ => none

end Sys2Proof
end

