-- ==== Sys2Proof/Machine/State.lean ====
section
/-! DEFINITION. The machine's state (10_state.md rules R20 to R36), its faults (rule R220), the
notifications of a tick (rule R205), why a request is refused, and the state after reset. -/

namespace Sys2Proof.Machine

/-- The four faults of the block with the information they record (R220). Every one carries `at_`, the
address A the faulting tick fetched from. A fault is TAKEN: the tick answers a next state whose status
is `halted` (R221), so the outcome `fault` is never answered; log entry 3. Safe: the block takes no
further tick, so nothing is provable of a run beyond it. -/
inductive Fault where
  /-- Code 1, raised by decoding for every illegal word (R77, R222). Safe. -/
  | decodeError (at_ : Word) (w : Word)
  /-- Code 2, raised by CALL with 12 live stack entries (R101, R223). Safe. -/
  | stackOverflow (at_ : Word) (target : Addr)
  /-- Code 3, raised by RET with an empty stack (R102, D9). Safe. -/
  | stackUnderflow (at_ : Word)
  /-- Code 4, raised by the fetch, LD [I], Vx, LD Vx, [I], LD B, Vx and DRW; `addr` is the lowest
  address above 0xFFF the access needed (R52, R53, R54, R55). Safe. -/
  | addressOutOfRange (at_ : Word) (addr : Nat)
deriving DecidableEq, Repr

/-- Why a request has no next state. Every one is safe: nothing happens where the spec says that
nothing happens. -/
inductive Refusal where
  /-- An instruction without a meaning in this model; no arm of `exec` uses it. Safe. -/
  | notModelled (mnemonic : String)
  /-- A tick requested while Halted: it is refused and changes nothing (R233, U15). Raised by `tick`.
  Safe. -/
  | tickWhileHalted
  /-- `pressKey(v)` with v above 15 is not a move the host has (R188, U13). Raised by `pressKey`.
  Safe. -/
  | notAKey
  /-- `reset(rom)` with a ROM of more than 3584 bytes is not performed (R252, U14). Raised by
  `hostReset`. Safe. -/
  | romTooLong
deriving DecidableEq, Repr

/-- Running, or Halted with the fault that halted the block (R30). -/
inductive Status where
  /-- The block takes ticks (R229). -/
  | running
  /-- The block takes no tick until reset (R233). -/
  | halted (f : Fault)
deriving DecidableEq, Repr

/-- A screen notification (R205). -/
inductive Event where
  /-- `ScreenCleared`, from CLS (R200). -/
  | screenCleared
  /-- `ByteUpdated(k, v)`, from DRW: framebuffer offset and the byte's new value (R202). -/
  | byteUpdated (k : Nat) (v : Byte)
deriving DecidableEq, Repr

/-- The depth of the call stack, legal values 0 to STACK_LIMIT = 12 (R6, R28, R34; log entry
13). -/
abbrev Depth := Fin 13

/-- All the state of the block. `mem` lists, by rising address, the bytes that differ from the reset
contents `Config.resetByte` (R20, R36). `cfg` holds the parameters of rule R6. The last three fields
are the tick's interface, not state of the spec: the events it returns and the random byte it is given
(R229). -/
structure State where
  /-- The 4096-byte memory: font, framebuffer, key bytes and program (R20). -/
  mem : List Host.Cell
  /-- V0 to VF (R21); VF is the flag register (R22). -/
  v : Vector Byte 16
  /-- The address register I (R26). -/
  i : Word
  /-- The program counter (R24). -/
  pc : Word
  /-- The delay timer (R27). -/
  dt : Byte
  /-- The sound timer (R27). -/
  st : Byte
  /-- The STACK_SLOTS = 16 return-address slots (R6, R28). -/
  stack : Vector Word 16
  /-- The number of live stack entries (R28). -/
  sp : Depth
  /-- Running or Halted (R30). -/
  status : Status
  /-- The parameters of rule R6; no step changes them (log entry 1). -/
  cfg : Config
  /-- The notifications emitted by the most recent tick, in order (R205); log entry 6. -/
  events : List Event
  /-- The random byte given with the current tick (R176). -/
  rnd : Byte
  /-- Which free random byte `step` takes next (R176); the model's counter, log entry 5. -/
  rndIndex : Nat
deriving DecidableEq, Repr

/-- What a meaning, a tick or a host move answers. -/
abbrev Result := Host.Outcome State Fault Refusal

/-- The state of rule R36 for given parameters and an empty ROM. The values of `events`, `rnd` and
`rndIndex`, the model's own fields, are a DESIGN CHOICE (log entries 5 and 6). -/
def State.resetWith (c : Config) : State where
  mem := []
  v := Vector.replicate 16 0x00
  i := 0x0000
  pc := 0x0200
  dt := 0x00
  st := 0x00
  stack := Vector.replicate 16 0x0000
  sp := 0
  status := .running
  cfg := c
  events := []
  rnd := 0x00
  rndIndex := 0

/-- The machine right after reset with the default parameters and an empty ROM (R36, R250, R252). How
a program comes to run is log entry 7. -/
def State.reset : State := State.resetWith Config.default

end Sys2Proof.Machine
end

