-- ==== Sys2Proof/Machine/Ops.lean ====
section
/-! DEFINITION. The shared operations over memory, registers, stack and status: one byte of memory
(R20, R53, R54), the access check (R51, R55), raising a fault (R221), the stack (R101, R102), the
instruction fetch (R52), the timer update (R170) and the keypad latch (R181, R182). -/

namespace Sys2Proof.Machine

/-! ## Memory as a canonical list of cells -/

namespace Memory

/-- The byte at an address: the listed one, or the reset contents (R36; log entry 11). -/
def read (c : Config) : List Host.Cell → Nat → Byte
  | [], a => c.resetByte a
  | (k, b) :: rest, a => if a = k then b else read c rest a

/-- Put a cell before the first cell of a higher address. -/
def insert (a : Nat) (b : Byte) : List Host.Cell → List Host.Cell
  | [] => [(a, b)]
  | (k, x) :: rest => if a < k then (a, b) :: (k, x) :: rest else (k, x) :: insert a b rest

/-- Write one byte. Writing what an unlisted address reads as removes the cell, so equal memories are
equal lists. -/
def write (c : Config) (m : List Host.Cell) (a : Nat) (b : Byte) : List Host.Cell :=
  let others := m.filter (fun cell => cell.1 ≠ a)
  if b = c.resetByte a then others else insert a b others

/-- Write bytes at consecutive addresses, the first at `a`, lowest address first. -/
def writes (c : Config) (a : Nat) : List Byte → List Host.Cell → List Host.Cell
  | [], m => m
  | b :: bs, m => writes c (a + 1) bs (write c m a b)

/-- The canonical form: addresses strictly rising, each inside 0x000..0xFFF (R20), and no cell equal
to the reset contents. -/
abbrev wf (c : Config) (m : List Host.Cell) : Prop :=
  m.Pairwise (fun p q => p.1 < q.1) ∧
    ∀ cell ∈ m, cell.1 < 4096 ∧ cell.2 ≠ c.resetByte cell.1

end Memory

namespace State

/-- `mem[a]` (R10, R53), for an address the access check has admitted. -/
def peek (s : State) (a : Nat) : Byte := Memory.read s.cfg s.mem a

/-- `mem[a] <- b` (R54), for an address the access check has admitted. -/
def poke (a : Nat) (b : Byte) (s : State) : State :=
  { s with mem := Memory.write s.cfg s.mem a b }

/-- Write bytes at consecutive addresses, the first at `a`, lowest address first. -/
def pokes (a : Nat) (bs : List Byte) (s : State) : State :=
  { s with mem := Memory.writes s.cfg a bs s.mem }

/-! ## Registers -/

/-- `V[x] <- b` (R21). -/
def setV (x : RegIx) (b : Byte) (s : State) : State := { s with v := s.v.set x b }

/-- `I <- w` (R26). -/
def setI (w : Word) (s : State) : State := { s with i := w }

/-- `pc <- w` (R24). -/
def setPc (w : Word) (s : State) : State := { s with pc := w }

/-- `dt <- b` (R27). -/
def setDt (b : Byte) (s : State) : State := { s with dt := b }

/-- `st <- b` (R27). -/
def setSt (b : Byte) (s : State) : State := { s with st := b }

/-- VF (R22). -/
abbrev vf : RegIx := 15

/-- The result and then the flag (R126): with x = 0xF the flag overwrites the result. -/
def setResultFlag (x : RegIx) (rf : Byte × Byte) (s : State) : State :=
  (s.setV x rf.1).setV vf rf.2

/-- `emit e` (R10, R205). -/
def emit (e : Event) (s : State) : State := { s with events := s.events ++ [e] }

/-! ## Program counter -/

/-- A: while an instruction executes, pc holds its address plus 2 (R24), so its address is pc - 2
modulo 2^16 (R101, R102). DEDUCED for the memory instructions; log entry 9. -/
def instrAddr (s : State) : Word := s.pc - 2

/-- The tick's advance, and the skip: pc + 2 modulo 2^16 (R24, R229). -/
def advance (s : State) : State := s.setPc (s.pc + 2)

/-- `if c: pc <- (pc + 2) mod 2^16` (R104 to R107, R183, R184). -/
def skipIf (c : Bool) (s : State) : State := if c then s.advance else s

/-- Rewind to this instruction (R185). -/
def rewind (s : State) : State := s.setPc (s.pc - 2)

/-! ## Faults -/

/-- `raise F(info)` (R221): status <- Halted(F), and the tick's event list is empty. Nothing else
changes; the tick runs no later step of its own. -/
def raise (f : Fault) (s : State) : State := { s with status := .halted f, events := [] }

end State

/-- The cause code of a fault (R220). -/
def Fault.code : Fault → Nat
  | .decodeError _ _ => 1
  | .stackOverflow _ _ => 2
  | .stackUnderflow _ => 3
  | .addressOutOfRange _ _ => 4

/-- The lowest address above 0xFFF among the `n` addresses from `base`, if there is one. Addresses are
exact natural numbers (R51, R53, R54, R55). -/
def firstOutOfRange (base n : Nat) : Option Nat :=
  if n = 0 ∨ base + n ≤ 4096 then none else some (max base 4096)

/-- Check the `n` addresses from `base`, then act; a failing check raises AddressOutOfRange with no
other effect (R55). -/
def accessing (base n : Nat) (act : State → State) (s : State) : State :=
  match firstOutOfRange base n with
  | some addr => s.raise (.addressOutOfRange s.instrAddr addr)
  | none => act s

namespace State

/-! ## The call stack -/

/-- The live stack, oldest first (R28). -/
def liveStack (s : State) : List Word := s.stack.toList.take s.sp.val

/-- Push the advanced pc and jump, or raise StackOverflow at depth 12 (R101). -/
def pushCall (target : Addr) (s : State) : State :=
  if h : s.sp.val < 12 then
    { s with
      stack := s.stack.set s.sp.val s.pc (h.trans (by decide))
      sp := ⟨s.sp.val + 1, Nat.succ_lt_succ h⟩
      pc := zext16 target }
  else s.raise (.stackOverflow s.instrAddr target)

/-- Pop into pc, or raise StackUnderflow on an empty stack; the popped slot keeps its value (R102). -/
def popReturn (s : State) : State :=
  if s.sp.val = 0 then s.raise (.stackUnderflow s.instrAddr)
  else
    { s with
      sp := ⟨s.sp.val - 1, (Nat.sub_le _ _).trans_lt s.sp.isLt⟩
      pc := s.stack[s.sp.val - 1]'((Nat.sub_le _ _).trans_lt (s.sp.isLt.trans (by decide))) }

/-! ## The keypad latch -/

/-- `isKeyPressed()` (R181). -/
def isKeyPressed (s : State) : Bool := s.peek s.cfg.keyPressedAddr == keyPressed

/-- The key-value byte (R32). -/
def keyValue (s : State) : Byte := s.peek s.cfg.keyValueAddr

/-- `pressedKeyValue()` (R182). -/
def pressedKeyValue (s : State) : Option Byte :=
  if s.isKeyPressed then some s.keyValue else none

/-- `isKeyValuePressed(b)`, a comparison of all 8 bits (R182, D29). -/
def isKeyValuePressed (s : State) (b : Byte) : Bool := s.isKeyPressed && s.keyValue == b

/-! ## The parts of a tick -/

/-- The start of a tick: it is given its random byte and has emitted nothing (R176, R205, R229). -/
def beginTick (b : Byte) (s : State) : State := { s with rnd := b, events := [] }

/-- Fetch(pc): the big-endian word at pc and pc + 1, or the lowest failing address (R52). -/
def fetch (s : State) : Except Nat Word :=
  match firstOutOfRange s.pc.toNat 2 with
  | some addr => .error addr
  | none => .ok (wordOfBytes (s.peek s.pc.toNat) (s.peek (s.pc.toNat + 1)))

/-- One timer's update: a non-zero timer is decremented, a zero timer stays zero (R170). -/
def countDown (t : Byte) : Byte := if t = 0 then 0 else t - 1

/-- TimerUpdate (R170). -/
def timerUpdate (s : State) : State := { s with dt := countDown s.dt, st := countDown s.st }

/-- The end of a tick: the timer update, unless Execute raised a fault (R170, R221, D24). -/
def endTick (s : State) : State :=
  match s.status with
  | .running => s.timerUpdate
  | .halted _ => s

/-! ## Placing a word for the next fetch -/

/-- Make the next fetch possible: Running, and pc at a place a fetch can read (0x200 where it is
not). In every other case nothing changes (log entry 7). -/
def fetchable (s : State) : State :=
  { s with
    status := .running
    pc := if (firstOutOfRange s.pc.toNat 2).isSome then 0x0200 else s.pc }

/-- Store a word where the next fetch reads it. -/
def placeWord (w : Word) (s : State) : State :=
  s.fetchable.pokes s.fetchable.pc.toNat (bytesOfWord w)

end State

end Sys2Proof.Machine
end

