-- ==== Sys2Proof/Machine/Operands.lean ====
section
/-! DEFINITION. The operand forms: V[x], V[0..x] as a block, the decimal digits, the font glyph's
address, and a pixel of the framebuffer. -/

namespace Sys2Proof.Machine

namespace State

/-- V[x] (R10, R72). -/
def getV (s : State) (x : RegIx) : Byte := s.v[x]

/-- V[0..x], lowest first (R152). -/
def block (s : State) (x : RegIx) : List Byte := s.v.toList.take (x.val + 1)

/-- The first `n` registers, each set to the byte of its number, in rising order. -/
def loadInto (byte : Nat → Byte) : Nat → Vector Byte 16 → Vector Byte 16
  | 0, v => v
  | n + 1, v => (loadInto byte n v).setIfInBounds n (byte n)

/-- `for k in 0..x: V[k] <- MemRead(I + k)` (R153). -/
def loadBlock (x : RegIx) (s : State) : State :=
  { s with v := loadInto (fun k => s.peek (s.i.toNat + k)) (x.val + 1) s.v }

/-- Pixel (px, py) of the framebuffer, `true` when lit: bit 7 - (px mod 8) of
`mem[FB_BASE + 8 py + px div 8]` (R31). -/
def pixel (s : State) (px py : Nat) : Bool :=
  (s.peek (s.cfg.fbBase + (8 * py + px / 8))).getLsbD (7 - px % 8)

end State

/-- The three decimal digits of a byte, hundreds first (R154). -/
def bcdDigits (v : Byte) : List Byte :=
  [BitVec.ofNat 8 (v.toNat / 100), BitVec.ofNat 8 (v.toNat / 10 % 10), BitVec.ofNat 8 (v.toNat % 10)]

/-- The address of the glyph of the low nibble: `(V[x] AND 0x0F) × 5` (R155). -/
def glyphAddr (v : Byte) : Word := zext16 (v &&& 0x0F) * 5

end Sys2Proof.Machine
end

