-- ==== Sys2Proof/Machine/Address.lean ====
section
/-! DEFINITION. The address register and the memory blocks (42_memory_address.md rules R150 to R155).
None of them writes VF as a flag or changes pc. -/

namespace Sys2Proof.Machine

/-- LD I, nnn (R150). -/
def execLdI (nnn : Addr) (s : State) : Result := .next (s.setI (zext16 nnn))

/-- ADD I, Vx: the sum modulo 2^16, no flag (R151). -/
def execAddI (x : RegIx) (s : State) : Result := .next (s.setI (s.i + zext16 (s.getV x)))

/-- LD F, Vx (R155). -/
def execLdF (x : RegIx) (s : State) : Result := .next (s.setI (glyphAddr (s.getV x)))

/-- LD B, Vx: hundreds, tens and ones at I, I + 1 and I + 2 (R154). -/
def execLdB (x : RegIx) (s : State) : Result :=
  .next (accessing s.i.toNat 3 (State.pokes s.i.toNat (bcdDigits (s.getV x))) s)

/-- LD [I], Vx: store V[0..x] from I; I unchanged (R152). -/
def execStoreRegs (x : RegIx) (s : State) : Result :=
  .next (accessing s.i.toNat (x.val + 1) (State.pokes s.i.toNat (s.block x)) s)

/-- LD Vx, [I]: load V[0..x] from I; I unchanged (R153). -/
def execLoadRegs (x : RegIx) (s : State) : Result :=
  .next (accessing s.i.toNat (x.val + 1) (State.loadBlock x) s)

end Sys2Proof.Machine
end

