-- ==== Sys2Proof/Machine/Flags.lean ====
section
/-! DEFINITION. The results and flags of the flag-writing instructions (rules R127 to R131, R203,
R204). Each operation returns the result and the flag, both computed from the operand values (R126). -/

namespace Sys2Proof.Machine

/-- A flag as VF holds it: 1 or 0 (R22). -/
def flag (b : Bool) : Byte := if b then 1 else 0

/-- ADD Vx, Vy: the sum modulo 2^8, and 1 when the exact sum exceeds 255 (R127). -/
def addWithCarry (a b : Byte) : Byte × Byte := (a + b, flag (a.toNat + b.toNat > 255))

/-- SUB: a - b modulo 2^8, and 1 when a > b, so 0 at equality (R128, C2). SUBN is the same with the
operands exchanged (R130). -/
def subWithFlag (a b : Byte) : Byte × Byte := (a - b, flag (a.toNat > b.toNat))

/-- SHR: a shifted right one bit, and the bit shifted out (R129). -/
def shiftRight (a : Byte) : Byte × Byte := (a >>> 1, a &&& 0x01)

/-- SHL: a shifted left one bit in 8 bits, and the bit shifted out (R131). -/
def shiftLeft (a : Byte) : Byte × Byte := ((a <<< 1) &&& 0xFF, (a &&& 0x80) >>> 7)

/-- The blitter's collision test: XOR differs from OR (R202, R204). -/
def collides (old v : Byte) : Bool := (old ^^^ v) ≠ (old ||| v)

end Sys2Proof.Machine
end

