-- ==== Sys2Proof/Machine/Alu.lean ====
section
/-! DEFINITION. Register loads and the ALU (41_alu.md rules R120 to R131). None of them changes pc,
accesses memory or raises a fault (R133). -/

namespace Sys2Proof.Machine

/-- LD Vx, kk (R120). -/
def execLdImm (x : RegIx) (kk : Byte) (s : State) : Result := .next (s.setV x kk)

/-- ADD Vx, kk: no flag (R121). -/
def execAddImm (x : RegIx) (kk : Byte) (s : State) : Result := .next (s.setV x (s.getV x + kk))

/-- LD Vx, Vy (R122). -/
def execLdReg (x y : RegIx) (s : State) : Result := .next (s.setV x (s.getV y))

/-- OR Vx, Vy: no flag (R123). -/
def execOrReg (x y : RegIx) (s : State) : Result := .next (s.setV x (s.getV x ||| s.getV y))

/-- AND Vx, Vy: no flag (R124). -/
def execAndReg (x y : RegIx) (s : State) : Result := .next (s.setV x (s.getV x &&& s.getV y))

/-- XOR Vx, Vy: no flag (R125). -/
def execXorReg (x y : RegIx) (s : State) : Result := .next (s.setV x (s.getV x ^^^ s.getV y))

/-- ADD Vx, Vy with carry (R127, R126). -/
def execAddReg (x y : RegIx) (s : State) : Result :=
  .next (s.setResultFlag x (addWithCarry (s.getV x) (s.getV y)))

/-- SUB Vx, Vy (R128, R126). -/
def execSub (x y : RegIx) (s : State) : Result :=
  .next (s.setResultFlag x (subWithFlag (s.getV x) (s.getV y)))

/-- SHR Vx; y is ignored (R129, R76, R126). -/
def execShr (x _y : RegIx) (s : State) : Result := .next (s.setResultFlag x (shiftRight (s.getV x)))

/-- SUBN Vx, Vy (R130, R126). -/
def execSubn (x y : RegIx) (s : State) : Result :=
  .next (s.setResultFlag x (subWithFlag (s.getV y) (s.getV x)))

/-- SHL Vx; y is ignored (R131, R76, R126). -/
def execShl (x _y : RegIx) (s : State) : Result := .next (s.setResultFlag x (shiftLeft (s.getV x)))

end Sys2Proof.Machine
end

