-- ==== Sys2Proof/Machine/Control.lean ====
section
/-! DEFINITION. Control flow and conditional skips (40_control_flow.md rules R100 to R107). -/

namespace Sys2Proof.Machine

/-- JP nnn (R100). -/
def execJp (nnn : Addr) (s : State) : Result := .next (s.setPc (zext16 nnn))

/-- CALL nnn (R101). -/
def execCall (nnn : Addr) (s : State) : Result := .next (s.pushCall nnn)

/-- RET (R102). -/
def execRet (s : State) : Result := .next s.popReturn

/-- JP V0, nnn (R103). -/
def execJpV0 (nnn : Addr) (s : State) : Result := .next (s.setPc (zext16 nnn + zext16 (s.getV 0)))

/-- SE Vx, kk (R104). -/
def execSeImm (x : RegIx) (kk : Byte) (s : State) : Result := .next (s.skipIf (s.getV x == kk))

/-- SNE Vx, kk (R105). -/
def execSneImm (x : RegIx) (kk : Byte) (s : State) : Result := .next (s.skipIf (s.getV x != kk))

/-- SE Vx, Vy (R106). -/
def execSeReg (x y : RegIx) (s : State) : Result := .next (s.skipIf (s.getV x == s.getV y))

/-- SNE Vx, Vy (R107). -/
def execSneReg (x y : RegIx) (s : State) : Result := .next (s.skipIf (s.getV x != s.getV y))

end Sys2Proof.Machine
end

