-- ==== Sys2Proof/Machine/Display.lean ====
section
/-! DEFINITION. The sprite blitter and the display instructions (45_display.md rules R200 to R203). -/

namespace Sys2Proof.Machine

/-- The bytes of a clear screen: 256 zeros (R200). -/
def clearScreen : List Byte := List.replicate 256 0x00

/-- CLS: every framebuffer byte zero, one ScreenCleared (R200). -/
def execCls (s : State) : Result :=
  .next ((s.pokes s.cfg.fbBase clearScreen).emit .screenCleared)

/-- The offset of the first destination byte of sprite row r (R201). -/
def blitOff0 (X Y : Byte) (r : Nat) : Nat := 8 * ((Y.toNat + r) % 32) + X.toNat / 8 % 8

/-- The offset of the second destination byte of sprite row r: the next column of the same row,
wrapping to column 0 (R201). -/
def blitOff1 (X Y : Byte) (r : Nat) : Nat := 8 * ((Y.toNat + r) % 32) + (X.toNat / 8 % 8 + 1) % 8

/-- The state during a blit and whether it has collided so far (R202). -/
structure Blit where
  /-- The machine. -/
  s : State
  /-- `collided`. -/
  collided : Bool
deriving DecidableEq, Repr

/-- XorByte(k, v): XOR one framebuffer byte, note a collision, emit ByteUpdated (R202). -/
def xorByte (k : Nat) (v : Byte) (b : Blit) : Blit :=
  let old := b.s.peek (b.s.cfg.fbBase + k)
  let new := old ^^^ v
  ⟨(b.s.poke (b.s.cfg.fbBase + k) new).emit (.byteUpdated k new), b.collided || collides old v⟩

/-- One sprite row: read its byte, then update the first destination byte and, when X is not
byte-aligned, the second (R202, D16). -/
def blitRow (X Y : Byte) (base r : Nat) (b : Blit) : Blit :=
  let row := b.s.peek (base + r)
  let sh := X.toNat % 8
  let b1 := xorByte (blitOff0 X Y r) (row >>> sh) b
  if sh = 0 then b1 else xorByte (blitOff1 X Y r) (row <<< (8 - sh)) b1

/-- The `n` sprite rows from row `r` on, in rising order (R202, D16). -/
def blitRows (X Y : Byte) (base : Nat) : (r n : Nat) → Blit → Blit
  | _, 0, b => b
  | r, n + 1, b => blitRows X Y base (r + 1) n (blitRow X Y base r b)

/-- drawSprite(X, Y, base, h), its bound check apart (R202). -/
def drawSprite (X Y : Byte) (base h : Nat) (s : State) : Blit := blitRows X Y base 0 h ⟨s, false⟩

/-- DRW past its bound check: the blit, then VF (R203). -/
def drawAndFlag (X Y : Byte) (base h : Nat) (s : State) : State :=
  let b := drawSprite X Y base h s
  b.s.setV State.vf (flag b.collided)

/-- DRW Vx, Vy, n: coordinates and base are read before any write, every sprite address is checked
before the first write, VF is written last (R203, R55). -/
def execDrw (x y : RegIx) (n : Nibble) (s : State) : Result :=
  .next (accessing s.i.toNat n.toNat (drawAndFlag (s.getV x) (s.getV y) s.i.toNat n.toNat) s)

end Sys2Proof.Machine
end

