-- ==== Sys2Proof/Machine/Keyboard.lean ====
section
/-! DEFINITION. The keyboard instructions (44_keyboard.md rules R183 to R185). They only read the latch
(R189). -/

namespace Sys2Proof.Machine

/-- SKP Vx (R183). -/
def execSkp (x : RegIx) (s : State) : Result := .next (s.skipIf (s.isKeyValuePressed (s.getV x)))

/-- SKNP Vx (R184). -/
def execSknp (x : RegIx) (s : State) : Result := .next (s.skipIf (!s.isKeyValuePressed (s.getV x)))

/-- LD Vx, K: rewind while no key is latched, else take its value (R185). -/
def execLdVxK (x : RegIx) (s : State) : Result :=
  match s.pressedKeyValue with
  | none => .next s.rewind
  | some b => .next (s.setV x b)

end Sys2Proof.Machine
end

