-- ==== Sys2Proof/Machine/Timers.lean ====
section
/-! DEFINITION. The timer instructions and the random byte (43_timers_random.md rules R171 to R176).
The decrement at the end of the tick is `State.timerUpdate` (R170). -/

namespace Sys2Proof.Machine

/-- LD Vx, DT: the value before this tick's decrement (R173). -/
def execLdVxDt (x : RegIx) (s : State) : Result := .next (s.setV x s.dt)

/-- LD DT, Vx (R171). -/
def execLdDtVx (x : RegIx) (s : State) : Result := .next (s.setDt (s.getV x))

/-- LD ST, Vx (R172). -/
def execLdStVx (x : RegIx) (s : State) : Result := .next (s.setSt (s.getV x))

/-- RND Vx, kk: the tick's random byte AND kk (R175, R176). -/
def execRnd (x : RegIx) (kk : Byte) (s : State) : Result := .next (s.setV x (s.rnd &&& kk))

end Sys2Proof.Machine
end

