-- ==== Sys2Proof/Machine/Tick.lean ====
section
/-! DEFINITION. The tick, the block's only step (60_exceptions.md rules R221, R225, R229, R233). -/

namespace Sys2Proof.Machine

/-- After Execute: the timer update on a tick that raised nothing (R170, R221). -/
def afterExecute : Result → Result
  | .next s => .next s.endTick
  | .fault f => .fault f
  | .refused r => .refused r

/-- Decode and Execute, with pc already advanced past the word fetched from `a` (R229). -/
def runWord (a : Word) (w : Word) (s : State) : Result :=
  match decode w with
  | .ok ins => afterExecute (exec ins s)
  | .error _ => .next (s.raise (.decodeError a w))

/-- Fetch, advance, decode, execute, timer update, on a Running block; a fetch fault leaves pc at the
failing address (R52, R229). -/
def runTick (s : State) : Result :=
  match s.fetch with
  | .error addr => .next (s.raise (.addressOutOfRange s.pc addr))
  | .ok w => runWord s.pc w s.advance

/-- Tick(rnd) (R229). While Halted the request is refused and changes nothing (R233). -/
def tick (b : Byte) (s : State) : Result :=
  match s.status with
  | .running => runTick (s.beginTick b)
  | .halted _ => .refused .tickWhileHalted

/-- A tick with the next free random byte (R176, log entry 5). -/
def freeTick (s : State) : Result :=
  tick (Config.randomByte s.rndIndex) { s with rndIndex := s.rndIndex + 1 }

end Sys2Proof.Machine
end

