-- ==== Sys2Proof/Machine/Step.lean ====
section
/-! DEFINITION. The machine's step: one tick with a random byte of which nothing is known (rules R176,
R229), and the placing of a word where that step fetches. -/

namespace Sys2Proof.Machine

/-- One tick (R229). -/
def step (s : State) : Host.Outcome State Fault Refusal := freeTick s

/-- The state with an instruction's word stored where `step` fetches next (log entry 7). -/
def State.withFetchWord (s : State) (nbits w : Nat) : State := s.placeWord (tableWord nbits w)

end Sys2Proof.Machine
end

