-- ==== Sys2Proof/Machine/HostMoves.lean ====
section
/-! DEFINITION. The host's moves (60_exceptions.md rule R235): reset, tick, pressKey and releaseKey.
They happen between ticks, each indivisible (R62, R188), in every status (DEDUCED, log entry
10). A `step` holds none of them (log entry 4). -/

namespace Sys2Proof.Machine

/-- What the host can do to the block (R235). -/
inductive HostMove where
  /-- `reset(rom)` (R250). -/
  | reset (rom : List Byte)
  /-- `tick(rnd)` (R229). -/
  | tick (b : Byte)
  /-- `pressKey(v)` (R186). -/
  | pressKey (v : Byte)
  /-- `releaseKey()` (R187). -/
  | releaseKey
deriving DecidableEq, Repr

/-- The state of rule R250: every field as rule R36 says, FONT in place, the ROM copied verbatim from
0x200. -/
def resetImage (c : Config) (rom : List Byte) : State := (State.resetWith c).pokes 0x200 rom

/-- `reset(rom)` (R250); a ROM of more than 3584 bytes is refused (R252). The parameters stay. The
counter of the free random bytes goes on, so that a reset block is not given the same bytes again
(log entry 5). -/
def hostReset (rom : List Byte) (s : State) : Result :=
  if romFits rom then .next { resetImage s.cfg rom with rndIndex := s.rndIndex }
  else .refused .romTooLong

/-- `pressKey(v)`, v in 0..15: both bytes of the latch as one update (R186); a larger v is not a move
the host has (R188). -/
def pressKey (v : Byte) (s : State) : Result :=
  if v.toNat < 16 then .next ((s.poke s.cfg.keyPressedAddr keyPressed).poke s.cfg.keyValueAddr v)
  else .refused .notAKey

/-- `releaseKey()`: the press flag cleared, the value byte left as it is (R187). -/
def releaseKey (s : State) : Result := .next (s.poke s.cfg.keyPressedAddr keyReleased)

/-- One move of the host (R235). -/
def hostMove (m : HostMove) (s : State) : Result :=
  match m with
  | .reset rom => hostReset rom s
  | .tick b => tick b s
  | .pressKey v => pressKey v s
  | .releaseKey => releaseKey s

end Sys2Proof.Machine
end

