-- ==== Sys2Proof/Safety.lean ====
section
/-! DEFINITION. The terms claims are stated in: what a safe run is, the invariant of the machine, the
frame of an instruction, and what taking a fault leaves. -/

namespace Sys2Proof.Machine

/-- A run of `k` steps from `s` is safe when every one of them is taken and none raises a fault: it
ends Running in `t` (R232, R257). -/
def SafeRun (k : Nat) (s t : State) : Prop :=
  Sys2Proof.core.run k s = .next t ∧ t.status = .running

/-- An event names an offset of the framebuffer, 0..255 (R205). -/
def Event.inRange : Event → Prop
  | .screenCleared => True
  | .byteUpdated k _ => k < 256

/-- What every step keeps: memory is in its canonical form, inside 0x000..0xFFF (R20); slots 12 to 15
of the stack, which no instruction writes, hold their reset value (R28); every event names a byte of
the framebuffer (R205); a Halted block has no events (R221). -/
structure Inv (s : State) : Prop where
  /-- The canonical form of memory. -/
  memory : Memory.wf s.cfg s.mem
  /-- The slots above the depth limit. -/
  reservedSlots : ∀ k : Fin 16, 12 ≤ k.val → s.stack[k] = 0
  /-- The events' offsets. -/
  events : ∀ e ∈ s.events, e.inRange
  /-- No event on a faulting tick. -/
  quietHalt : s.status ≠ .running → s.events = []

/-- The parts of the state an instruction may change. -/
inductive Part where
  | mem | v | i | pc | dt | st | stack | status | events
deriving DecidableEq, Repr

/-- One part reads the same in two states. Memory and the stack are compared by what they read as. -/
def Part.same (p : Part) (s t : State) : Prop :=
  match p with
  | .mem => ∀ a, t.peek a = s.peek a
  | .v => ∀ j, t.getV j = s.getV j
  | .i => t.i = s.i
  | .pc => t.pc = s.pc
  | .dt => t.dt = s.dt
  | .st => t.st = s.st
  | .stack => t.sp = s.sp ∧ ∀ k : Fin 16, t.stack[k] = s.stack[k]
  | .status => t.status = s.status
  | .events => t.events = s.events

/-- The frame: every part but the named ones is unchanged, and so are the parameters and the tick's
random input. -/
def Frame (changed : List Part) (s t : State) : Prop :=
  (∀ p, p ∉ changed → p.same s t) ∧ t.cfg = s.cfg ∧ t.rnd = s.rnd ∧ t.rndIndex = s.rndIndex

/-- Nothing but the register Vx changes. -/
def OnlyV (x : RegIx) (s t : State) : Prop :=
  (∀ j, j ≠ x → t.getV j = s.getV j) ∧ Frame [.v] s t

/-- Nothing but Vx and VF changes. -/
def OnlyVAndFlag (x : RegIx) (s t : State) : Prop :=
  (∀ j, j ≠ x → j ≠ 15 → t.getV j = s.getV j) ∧ Frame [.v] s t

/-- Raising `f` during Execute: Halted with `f`, no event, everything else unchanged (R221). -/
def Raises (f : Fault) (s t : State) : Prop :=
  t.status = .halted f ∧ t.events = [] ∧ Frame [.status, .events] s t

/-- `addr` is the lowest address above 0xFFF among `first..last` (R55). -/
def LowestOutOfRange (first last addr : Nat) : Prop :=
  IsLeast (fun a => first ≤ a ∧ a ≤ last ∧ 0xFFF < a) addr

end Sys2Proof.Machine
end

