-- ==== Sys2Proof/Certificates/Slice0/Obligations.lean ====
section
/-! DEFINITION. The statements for the provers. Each docstring names the rules of the spec it follows. -/

namespace Sys2Proof.Machine

/-! ## Tables of the spec that statements are compared with -/

/-- Which registers an instruction writes (R23's table, with the flag writers of R22). -/
def writesRegister (ins : Instr) (j : RegIx) : Prop :=
  match ins with
  | .ldImm x _ | .addImm x _ | .ldReg x _ | .orReg x _ | .andReg x _ | .xorReg x _ | .rnd x _
  | .ldVxDt x | .ldVxK x => j = x
  | .addReg x _ | .sub x _ | .shr x _ | .subn x _ | .shl x _ => j = x ∨ j = 15
  | .drw _ _ _ => j = 15
  | .loadRegs x => j ≤ x
  | _ => False

/-- Which addresses an instruction stores to (R56, R208): the framebuffer for CLS and DRW, three bytes
from I for LD B, x + 1 bytes from I for LD [I], none for any other. -/
def storesAt (ins : Instr) (s : State) (a : Nat) : Prop :=
  match ins with
  | .cls | .drw _ _ _ => s.cfg.fbBase ≤ a ∧ a < s.cfg.fbBase + 256
  | .ldB _ => s.i.toNat ≤ a ∧ a ≤ s.i.toNat + 2
  | .storeRegs x => s.i.toNat ≤ a ∧ a ≤ s.i.toNat + x.val
  | _ => False

/-- Which parts an instruction may change when it raises no fault (R22, R25, R26, R27, R28, R205,
R208). -/
def mayChange : Instr → List Part
  | .cls => [.mem, .events]
  | .drw _ _ _ => [.mem, .v, .events]
  | .ldB _ | .storeRegs _ => [.mem]
  | .jp _ | .jpV0 _ | .seImm _ _ | .sneImm _ _ | .seReg _ _ | .sneReg _ _ | .skp _ | .sknp _ => [.pc]
  | .call _ | .ret => [.pc, .stack]
  | .ldVxK _ => [.pc, .v]
  | .ldI _ | .addI _ | .ldF _ => [.i]
  | .ldDtVx _ => [.dt]
  | .ldStVx _ => [.st]
  | _ => [.v]

/-- The fault an instruction raises in a state, if any (R220's table). A is pc - 2, pc being 2 past the
address fetched from while an instruction executes (R24); for the memory instructions applied by Execute
alone that is DEDUCED (log entry 9). -/
def instrFault (ins : Instr) (s : State) : Option Fault :=
  let outOfRange (last : Nat) : Option Fault :=
    if 0xFFF < last then some (.addressOutOfRange (s.pc - 2) (max s.i.toNat 0x1000)) else none
  match ins with
  | .call nnn => if s.sp.val = 12 then some (.stackOverflow (s.pc - 2) nnn) else none
  | .ret => if s.sp.val = 0 then some (.stackUnderflow (s.pc - 2)) else none
  | .storeRegs x | .loadRegs x => outOfRange (s.i.toNat + x.val)
  | .ldB _ => outOfRange (s.i.toNat + 2)
  | .drw _ _ n => if n = 0 then none else outOfRange (s.i.toNat + n.toNat - 1)
  | _ => none

/-- The word at pc, big-endian (R52). -/
def wordAtPc (s : State) : Word := s.peek s.pc.toNat ++ s.peek (s.pc.toNat + 1)

/-- What Execute sees of a tick: the random byte in, no event yet, pc advanced (R229). -/
def executeView (b : Byte) (s : State) : State := { s with rnd := b, events := [], pc := s.pc + 2 }

/-- The fault a tick reports, if any, in the order of R225: the fetch's bound, then decoding, then the
instruction's own check. -/
def tickFault (b : Byte) (s : State) : Option Fault :=
  if 0xFFF < s.pc.toNat + 1 then some (.addressOutOfRange s.pc (max s.pc.toNat 0x1000))
  else
    match decode (wordAtPc s) with
    | .error _ => some (.decodeError s.pc (wordAtPc s))
    | .ok ins => instrFault ins (executeView b s)

/-- The address A a fault records (R220). -/
def faultAddress : Fault → Word
  | .decodeError a _ | .stackOverflow a _ | .stackUnderflow a | .addressOutOfRange a _ => a

/-- Execute a list of instructions, one after another. -/
def execAll : List Instr → State → Result
  | [], s => .next s
  | ins :: rest, s =>
    match exec ins s with
    | .next t => execAll rest t
    | .fault f => .fault f
    | .refused r => .refused r

/-- `k` ticks, none of which faults or executes LD DT, Vx (R258's premise). -/
def TicksWithoutLdDt : Nat → State → State → Prop
  | 0, s, t => t = s
  | k + 1, s, t => ∃ u, step s = .next u ∧ u.status = .running ∧
      (∀ x, decode (wordAtPc s) ≠ .ok (.ldDtVx x)) ∧ TicksWithoutLdDt k u t

/-- The framebuffer offsets a blit of `n` rows updates, in order (R201, R202). -/
def blitOffsets (X Y : Byte) (n : Nat) : List Nat :=
  (List.range n).flatMap fun r =>
    let row := (Y.toNat + r) % 32
    let col := X.toNat / 8 % 8
    if X.toNat % 8 = 0 then [8 * row + col] else [8 * row + col, 8 * row + (col + 1) % 8]

/-- Whether the sprite of `n` rows at `base`, drawn at (X, Y), sets pixel (px, py): the pixel is
`(py - Y) mod 32` rows down and `(px - X) mod 64` columns right of the sprite's top left corner, and
the most significant bit of a sprite byte is leftmost (R31, R201). -/
def spriteCovers (s : State) (X Y : Byte) (base n px py : Nat) : Bool :=
  let r := (py + 256 - Y.toNat) % 32
  let c := (px + 256 - X.toNat) % 64
  decide (r < n) && decide (c < 8) && (s.peek (base + r)).getLsbD (7 - c)

/-- Some framebuffer pixel is lit in `s` and not in `t`. -/
def SomePixelTurnedOff (s t : State) : Prop :=
  ∃ px py, px < 64 ∧ py < 32 ∧ s.pixel px py = true ∧ t.pixel px py = false

/-- The sprite's bytes exist and lie outside the framebuffer; a sprite of no rows has none. -/
def SpriteApart (s : State) (n : Nat) : Prop :=
  n = 0 ∨ (s.i.toNat + n ≤ 0x1000 ∧
    (s.i.toNat + n ≤ s.cfg.fbBase ∨ s.cfg.fbBase + 256 ≤ s.i.toNat))

/-- Pixel (px, py) after `n` rows of a sprite at `base` drawn at (X, Y), wherever its bytes lie. Row n is
the byte at `base + n` as it stands when the rows before it are drawn: a byte of the framebuffer is read
from the screen they left, any other byte from memory (R202, D16). -/
def screenAfterRows (s : State) (X Y : Byte) (base : Nat) : (n px py : Nat) → Bool
  | 0, px, py => s.pixel px py
  | n + 1, px, py =>
    let c := (px + 256 - X.toNat) % 64
    let k := base + n - s.cfg.fbBase
    let spriteBit :=
      if s.cfg.fbBase ≤ base + n ∧ k < 256 then
        screenAfterRows s X Y base n (8 * (k % 8) + c) (k / 8)
      else (s.peek (base + n)).getLsbD (7 - c)
    screenAfterRows s X Y base n px py ^^
      (decide ((Y.toNat + n) % 32 = py) && decide (c < 8) && spriteBit)

/-- The byte an address reads as after an instruction: what a store put there (R152, R154, R200), what
the draw left in the framebuffer, or what was there before; a faulting instruction stores nothing. -/
def byteAfter (ins : Instr) (s t : State) (a : Nat) : Byte :=
  if (instrFault ins s).isSome then s.peek a
  else
    match ins with
    | .storeRegs x =>
      if s.i.toNat ≤ a ∧ a ≤ s.i.toNat + x.val then s.getV (Fin.ofNat 16 (a - s.i.toNat)) else s.peek a
    | .ldB x =>
      let v := (s.getV x).toNat
      if a = s.i.toNat then BitVec.ofNat 8 (v / 100)
      else if a = s.i.toNat + 1 then BitVec.ofNat 8 (v / 10 % 10)
      else if a = s.i.toNat + 2 then BitVec.ofNat 8 (v % 10)
      else s.peek a
    | .cls => if s.cfg.fbBase ≤ a ∧ a < s.cfg.fbBase + 256 then 0x00 else s.peek a
    | .drw _ _ _ => if s.cfg.fbBase ≤ a ∧ a < s.cfg.fbBase + 256 then t.peek a else s.peek a
    | _ => s.peek a

/-- The key whose value is `b` is latched as pressed: the flag byte is 0xFF and the value byte is `b`
(R181, R182). -/
def KeyLatched (s : State) (b : Byte) : Prop :=
  s.peek s.cfg.keyPressedAddr = 0xFF ∧ s.peek s.cfg.keyValueAddr = b

/-- What pc is after an instruction that saw pc (R25, R100 to R107, R183 to R185): a jump's or a call's
target, the return address on top of the stack, 2 more where a skip's test holds, 2 less where no key is
latched, and pc itself otherwise, a CALL or RET that faults among them. -/
def PcAfter (ins : Instr) (s : State) (pc : Word) : Prop :=
  let skips (test : Prop) : Prop := (test → pc = s.pc + 2) ∧ (¬test → pc = s.pc)
  match ins with
  | .jp nnn => pc.toNat = nnn.toNat
  | .jpV0 nnn => pc.toNat = nnn.toNat + (s.getV 0).toNat
  | .call nnn => (s.sp.val < 12 → pc.toNat = nnn.toNat) ∧ (s.sp.val = 12 → pc = s.pc)
  | .ret => (∀ top : Fin 16, s.sp.val = top.val + 1 → pc = s.stack[top]) ∧ (s.sp.val = 0 → pc = s.pc)
  | .seImm x kk => skips (s.getV x = kk)
  | .sneImm x kk => skips (s.getV x ≠ kk)
  | .seReg x y => skips (s.getV x = s.getV y)
  | .sneReg x y => skips (s.getV x ≠ s.getV y)
  | .skp x => skips (KeyLatched s (s.getV x))
  | .sknp x => skips (¬KeyLatched s (s.getV x))
  | .ldVxK _ =>
    (s.peek s.cfg.keyPressedAddr ≠ 0xFF → pc = s.pc - 2) ∧
    (s.peek s.cfg.keyPressedAddr = 0xFF → pc = s.pc)
  | _ => pc = s.pc

end Sys2Proof.Machine

open Sys2Proof Sys2Proof.Machine

/-! ## Encoding -/

/-- A few words of the spec's own examples and vectors decode to the instruction they stand for (S1,
S2, S3, EN1, EN5, EN10, EN12). -/
def Obligations.SpecExampleWordsDecode : Prop :=
  decode 0x00E0 = .ok .cls ∧ decode 0x1ABC = .ok (.jp 0xABC) ∧ decode 0x8126 = .ok (.shr 1 2) ∧
  decode 0x0000 = .error (.unknownOpcode 0x0000) ∧ decode 0x5120 = .ok (.seReg 1 2) ∧
  decode 0xE39E = .ok (.skp 3) ∧ decode 0xD12F = .ok (.drw 1 2 15)

/-- Every instruction's word decodes to it, with every operand at every value (R73, R75, R79). -/
def Obligations.DecodeOfEncodeIsTheInstruction : Prop :=
  ∀ ins : Instr, decode (encode ins) = .ok ins

/-- Round trip: for every word that decodes, the word is recovered exactly from the decoded term
(R79). -/
def Obligations.EncodeOfDecodeIsTheWord : Prop :=
  ∀ (w : Word) (ins : Instr), decode w = .ok ins → encode ins = w

/-- A word that matches no row of the opcode map decodes to DecodeError(w) carrying the word, and every
other word decodes (R73, R77, R78). -/
def Obligations.IllegalWordsAreThoseThatMatchNoRow : Prop :=
  ∀ w : Word,
    (legalWord w = false → decode w = .error (.unknownOpcode w)) ∧
    (legalWord w = true → ∃ ins, decode w = .ok ins ∧ ins.row.matchesWord w = true)

/-- No two rows of the opcode map match the same word (R75). -/
def Obligations.OpcodeRowsNeverOverlap : Prop :=
  ∀ (r r' : OpcodeRow) (w : Word), r ∈ opcodeMap → r' ∈ opcodeMap →
    r.matchesWord w = true → r'.matchesWord w = true → r = r'

/-! ## Register loads and the ALU -/

/-- LD Vx, kk; ADD Vx, kk; LD Vx, Vy: the new value, and nothing else changes (R120, R121, R122). -/
def Obligations.LoadsAndImmediateAdd : Prop :=
  ∀ (x y : RegIx) (kk : Byte) (s : State),
    (decode (encodeKk 0x6 x kk) = .ok (.ldImm x kk) ∧
      ∃ t, exec (.ldImm x kk) s = .next t ∧ t.getV x = kk ∧ OnlyV x s t) ∧
    (decode (encodeKk 0x7 x kk) = .ok (.addImm x kk) ∧
      ∃ t, exec (.addImm x kk) s = .next t ∧
        (t.getV x).toNat = ((s.getV x).toNat + kk.toNat) % 256 ∧ OnlyV x s t) ∧
    (decode (encodeXyn 0x8 x y 0x0) = .ok (.ldReg x y) ∧
      ∃ t, exec (.ldReg x y) s = .next t ∧ t.getV x = s.getV y ∧ OnlyV x s t)

/-- OR, AND, XOR: bit by bit on V[x] and V[y] into V[x], the flag register untouched unless it is the
destination (R123, R124, R125). -/
def Obligations.BitwiseOperations : Prop :=
  ∀ (x y : RegIx) (s : State),
    (decode (encodeXyn 0x8 x y 0x1) = .ok (.orReg x y) ∧
      ∃ t, exec (.orReg x y) s = .next t ∧ OnlyV x s t ∧
        ∀ b < 8, (t.getV x).getLsbD b = ((s.getV x).getLsbD b || (s.getV y).getLsbD b)) ∧
    (decode (encodeXyn 0x8 x y 0x2) = .ok (.andReg x y) ∧
      ∃ t, exec (.andReg x y) s = .next t ∧ OnlyV x s t ∧
        ∀ b < 8, (t.getV x).getLsbD b = ((s.getV x).getLsbD b && (s.getV y).getLsbD b)) ∧
    (decode (encodeXyn 0x8 x y 0x3) = .ok (.xorReg x y) ∧
      ∃ t, exec (.xorReg x y) s = .next t ∧ OnlyV x s t ∧
        ∀ b < 8, (t.getV x).getLsbD b = ((s.getV x).getLsbD b ^^ (s.getV y).getLsbD b))

/-- ADD Vx, Vy; SUB; SUBN: the result modulo 256, then VF; both from the values before the instruction
(R127, R128, R130, R126). With x = 0xF only the flag remains. -/
def Obligations.AddAndSubtractWithFlag : Prop :=
  ∀ (x y : RegIx) (s : State),
    let a := (s.getV x).toNat
    let b := (s.getV y).toNat
    (decode (encodeXyn 0x8 x y 0x4) = .ok (.addReg x y) ∧
      ∃ t, exec (.addReg x y) s = .next t ∧ OnlyVAndFlag x s t ∧
        t.getV 15 = (if a + b > 255 then 1 else 0) ∧ (x ≠ 15 → (t.getV x).toNat = (a + b) % 256)) ∧
    (decode (encodeXyn 0x8 x y 0x5) = .ok (.sub x y) ∧
      ∃ t, exec (.sub x y) s = .next t ∧ OnlyVAndFlag x s t ∧
        t.getV 15 = (if a > b then 1 else 0) ∧ (x ≠ 15 → (t.getV x).toNat = (a + 256 - b) % 256)) ∧
    (decode (encodeXyn 0x8 x y 0x7) = .ok (.subn x y) ∧
      ∃ t, exec (.subn x y) s = .next t ∧ OnlyVAndFlag x s t ∧
        t.getV 15 = (if b > a then 1 else 0) ∧ (x ≠ 15 → (t.getV x).toNat = (b + 256 - a) % 256))

/-- SHR and SHL: V[x] shifted one bit, VF the bit shifted out; every y decodes and none matters (R129,
R131). -/
def Obligations.ShiftsByOneBit : Prop :=
  ∀ (x y y' : RegIx) (s : State),
    let a := (s.getV x).toNat
    (decode (encodeXyn 0x8 x y 0x6) = .ok (.shr x y) ∧
      ∃ t, exec (.shr x y) s = .next t ∧ exec (.shr x y') s = .next t ∧ OnlyVAndFlag x s t ∧
        (t.getV 15).toNat = a % 2 ∧ (x ≠ 15 → (t.getV x).toNat = a / 2)) ∧
    (decode (encodeXyn 0x8 x y 0xE) = .ok (.shl x y) ∧
      ∃ t, exec (.shl x y) s = .next t ∧ exec (.shl x y') s = .next t ∧ OnlyVAndFlag x s t ∧
        (t.getV 15).toNat = a / 128 ∧ (x ≠ 15 → (t.getV x).toNat = 2 * a % 256))

/-! ## Control flow -/

/-- JP nnn and JP V0, nnn: pc is the zero-extended address, or its exact sum with V0, and nothing else
changes (R100, R103). -/
def Obligations.Jumps : Prop :=
  ∀ (nnn : Addr) (s : State),
    (decode (encodeNnn 0x1 nnn) = .ok (.jp nnn) ∧
      ∃ t, exec (.jp nnn) s = .next t ∧ t.pc.toNat = nnn.toNat ∧ Frame [.pc] s t) ∧
    (decode (encodeNnn 0xB nnn) = .ok (.jpV0 nnn) ∧
      ∃ t, exec (.jpV0 nnn) s = .next t ∧ t.pc.toNat = nnn.toNat + (s.getV 0).toNat ∧
        Frame [.pc] s t)

/-- The four conditional skips: pc plus 2 modulo 2^16 when the test holds, else pc (R104, R105, R106,
R107). -/
def Obligations.ConditionalSkips : Prop :=
  ∀ (x y : RegIx) (kk : Byte) (s : State),
    let skipped := s.pc + 2
    (decode (encodeKk 0x3 x kk) = .ok (.seImm x kk) ∧
      ∃ t, exec (.seImm x kk) s = .next t ∧ Frame [.pc] s t ∧
        t.pc = if s.getV x = kk then skipped else s.pc) ∧
    (decode (encodeKk 0x4 x kk) = .ok (.sneImm x kk) ∧
      ∃ t, exec (.sneImm x kk) s = .next t ∧ Frame [.pc] s t ∧
        t.pc = if s.getV x = kk then s.pc else skipped) ∧
    (decode (encodeXyn 0x5 x y 0x0) = .ok (.seReg x y) ∧
      ∃ t, exec (.seReg x y) s = .next t ∧ Frame [.pc] s t ∧
        t.pc = if s.getV x = s.getV y then skipped else s.pc) ∧
    (decode (encodeXyn 0x9 x y 0x0) = .ok (.sneReg x y) ∧
      ∃ t, exec (.sneReg x y) s = .next t ∧ Frame [.pc] s t ∧
        t.pc = if s.getV x = s.getV y then s.pc else skipped)

/-- CALL nnn: below depth 12 the advanced pc is pushed and pc is nnn; at depth 12 StackOverflow is
raised and nothing is written (R101). -/
def Obligations.CallPushesOrOverflows : Prop :=
  ∀ (nnn : Addr) (s : State),
    decode (encodeNnn 0x2 nnn) = .ok (.call nnn) ∧
    (s.sp.val < 12 → ∃ t, exec (.call nnn) s = .next t ∧ t.pc.toNat = nnn.toNat ∧
      t.sp.val = s.sp.val + 1 ∧
      (∀ k : Fin 16, t.stack[k] = if k.val = s.sp.val then s.pc else s.stack[k]) ∧
      Frame [.pc, .stack] s t) ∧
    (s.sp.val = 12 → ∃ t, exec (.call nnn) s = .next t ∧
      Raises (.stackOverflow (s.pc - 2) nnn) s t)

/-- RET: on a stack with an entry, the top becomes pc and the slots keep their values; on an empty one
StackUnderflow is raised and nothing is written (R102). -/
def Obligations.ReturnPopsOrUnderflows : Prop :=
  ∀ s : State,
    decode 0x00EE = .ok .ret ∧
    (∀ top : Fin 16, s.sp.val = top.val + 1 → ∃ t, exec .ret s = .next t ∧ t.pc = s.stack[top] ∧
      t.sp.val = top.val ∧ (∀ k : Fin 16, t.stack[k] = s.stack[k]) ∧ Frame [.pc, .stack] s t) ∧
    (s.sp.val = 0 → ∃ t, exec .ret s = .next t ∧
      Raises (.stackUnderflow (s.pc - 2)) s t)

/-- Strict LIFO: after any nest of calls that fits the depth limit, as many returns restore pc, the
depth and the live stack, and every other part of the state (R102). -/
def Obligations.NestedCallsReturnInOrder : Prop :=
  ∀ (targets : List Addr) (s : State), s.sp.val + targets.length ≤ 12 →
    ∃ t, execAll (targets.map .call ++ List.replicate targets.length .ret) s = .next t ∧
      t.pc = s.pc ∧ t.liveStack = s.liveStack ∧ Frame [.stack] s t

/-- 12 nested CALLs succeed and a 13th raises StackOverflow (R101, R256). -/
def Obligations.TwelveCallsSucceedTheNextOverflows : Prop :=
  ∀ (targets : List Addr) (next : Addr) (s : State), s.sp.val = 0 → s.status = .running →
    targets.length = 12 →
    ∃ t, execAll (targets.map .call) s = .next t ∧ t.status = .running ∧ t.sp.val = 12 ∧
      ∃ u, exec (.call next) t = .next u ∧
        u.status = .halted (.stackOverflow (t.pc - 2) next) ∧ u.liveStack = t.liveStack

/-! ## Address register and memory blocks -/

/-- LD I, nnn; ADD I, Vx modulo 2^16 with VF kept; LD F, Vx (R150, R151, R155). -/
def Obligations.AddressRegisterWrites : Prop :=
  ∀ (x : RegIx) (nnn : Addr) (s : State),
    (decode (encodeNnn 0xA nnn) = .ok (.ldI nnn) ∧
      ∃ t, exec (.ldI nnn) s = .next t ∧ t.i.toNat = nnn.toNat ∧ Frame [.i] s t) ∧
    (decode (encodeKk 0xF x 0x1E) = .ok (.addI x) ∧
      ∃ t, exec (.addI x) s = .next t ∧
        t.i.toNat = (s.i.toNat + (s.getV x).toNat) % 65536 ∧ Frame [.i] s t) ∧
    (decode (encodeKk 0xF x 0x29) = .ok (.ldF x) ∧
      ∃ t, exec (.ldF x) s = .next t ∧ t.i.toNat = (s.getV x).toNat % 16 * 5 ∧ Frame [.i] s t)

/-- LD [I], Vx: V0..Vx stored from I, every other byte and I unchanged; past 0xFFF the fault with the
lowest address, and no byte written (R152). That the fault records pc - 2 follows from
R220 and R24 for a tick; for Execute alone it is the model's (DEDUCED, log entry 9). -/
def Obligations.BlockStore : Prop :=
  ∀ (x : RegIx) (s : State),
    decode (encodeKk 0xF x 0x55) = .ok (.storeRegs x) ∧
    (s.i.toNat + x.val ≤ 0xFFF → ∃ t, exec (.storeRegs x) s = .next t ∧
      (∀ k : RegIx, k ≤ x → t.peek (s.i.toNat + k.val) = s.getV k) ∧
      (∀ a, a < s.i.toNat ∨ s.i.toNat + x.val < a → t.peek a = s.peek a) ∧ Frame [.mem] s t) ∧
    (0xFFF < s.i.toNat + x.val → ∃ t addr, exec (.storeRegs x) s = .next t ∧
      LowestOutOfRange s.i.toNat (s.i.toNat + x.val) addr ∧
      Raises (.addressOutOfRange (s.pc - 2) addr) s t)

/-- LD Vx, [I]: V0..Vx loaded from I, every other register and I unchanged; past 0xFFF the fault with
the lowest address, and no register written (R153). That the fault records pc - 2 follows from
R220 and R24 for a tick; for Execute alone it is the model's (DEDUCED, log entry 9). -/
def Obligations.BlockLoad : Prop :=
  ∀ (x : RegIx) (s : State),
    decode (encodeKk 0xF x 0x65) = .ok (.loadRegs x) ∧
    (s.i.toNat + x.val ≤ 0xFFF → ∃ t, exec (.loadRegs x) s = .next t ∧
      (∀ k : RegIx, t.getV k = if k ≤ x then s.peek (s.i.toNat + k.val) else s.getV k) ∧
      Frame [.v] s t) ∧
    (0xFFF < s.i.toNat + x.val → ∃ t addr, exec (.loadRegs x) s = .next t ∧
      LowestOutOfRange s.i.toNat (s.i.toNat + x.val) addr ∧
      Raises (.addressOutOfRange (s.pc - 2) addr) s t)

/-- LD B, Vx: the three decimal digits at I, I + 1 and I + 2, every other byte unchanged; past 0xFFF
the fault with the lowest address, and no byte written (R154). That the fault records pc - 2 follows from
R220 and R24 for a tick; for Execute alone it is the model's (DEDUCED, log entry 9). -/
def Obligations.DecimalStore : Prop :=
  ∀ (x : RegIx) (s : State),
    decode (encodeKk 0xF x 0x33) = .ok (.ldB x) ∧
    (s.i.toNat + 2 ≤ 0xFFF → ∃ t, exec (.ldB x) s = .next t ∧
      (t.peek s.i.toNat).toNat = (s.getV x).toNat / 100 ∧
      (t.peek (s.i.toNat + 1)).toNat = (s.getV x).toNat / 10 % 10 ∧
      (t.peek (s.i.toNat + 2)).toNat = (s.getV x).toNat % 10 ∧
      (∀ a, a < s.i.toNat ∨ s.i.toNat + 2 < a → t.peek a = s.peek a) ∧ Frame [.mem] s t) ∧
    (0xFFF < s.i.toNat + 2 → ∃ t addr, exec (.ldB x) s = .next t ∧
      LowestOutOfRange s.i.toNat (s.i.toNat + 2) addr ∧
      Raises (.addressOutOfRange (s.pc - 2) addr) s t)

/-- The block load is the inverse of the block store: in any state with the memory a store left, the
parameters and the I it used, the load brings V0..Vx back (R152, R153). -/
def Obligations.BlockLoadInvertsBlockStore : Prop :=
  ∀ (x : RegIx) (s t u : State), s.i.toNat + x.val ≤ 0xFFF → exec (.storeRegs x) s = .next t →
    u.mem = t.mem → u.cfg = t.cfg → u.i = t.i →
    ∃ w, exec (.loadRegs x) u = .next w ∧ (∀ k : RegIx, k ≤ x → w.getV k = s.getV k) ∧
      ∀ k : RegIx, x < k → w.getV k = u.getV k

/-- A byte written by an instruction is seen by every fetch that reads it: in any later state with the
memory an instruction left, whatever its pc, the fetch gives the word of the two bytes as the
instruction left them, stored by it or not (R65). -/
def Obligations.StoreIsSeenByTheNextFetch : Prop :=
  ∀ (ins : Instr) (s t u : State), exec ins s = .next t → u.mem = t.mem → u.cfg = t.cfg →
    u.pc.toNat + 1 ≤ 0xFFF →
    u.fetch = .ok (byteAfter ins s t u.pc.toNat ++ byteAfter ins s t (u.pc.toNat + 1))

/-! ## Timers and the random byte -/

/-- LD DT, Vx; LD ST, Vx; LD Vx, DT: the value of Execute, and for the two writes the value the same
tick's timer update leaves (R171, R172, R173). -/
def Obligations.TimerInstructions : Prop :=
  ∀ (x : RegIx) (s : State),
    (decode (encodeKk 0xF x 0x15) = .ok (.ldDtVx x) ∧
      ∃ t, exec (.ldDtVx x) s = .next t ∧ t.dt = s.getV x ∧ Frame [.dt] s t ∧
        (s.status = .running → t.endTick.dt.toNat = (s.getV x).toNat - 1)) ∧
    (decode (encodeKk 0xF x 0x18) = .ok (.ldStVx x) ∧
      ∃ t, exec (.ldStVx x) s = .next t ∧ t.st = s.getV x ∧ Frame [.st] s t ∧
        (s.status = .running → t.endTick.st.toNat = (s.getV x).toNat - 1)) ∧
    (decode (encodeKk 0xF x 0x07) = .ok (.ldVxDt x) ∧
      ∃ t, exec (.ldVxDt x) s = .next t ∧ t.getV x = s.dt ∧ OnlyV x s t)

/-- RND Vx, kk: the supplied byte AND kk, whatever byte the host supplies (R175, R176). -/
def Obligations.RandomByteAndMask : Prop :=
  ∀ (x : RegIx) (kk b : Byte) (s : State),
    decode (encodeKk 0xC x kk) = .ok (.rnd x kk) ∧
    (∃ t, exec (.rnd x kk) s = .next t ∧ t.getV x = s.rnd &&& kk ∧ OnlyV x s t) ∧
    (s.status = .running → s.pc.toNat + 1 ≤ 0xFFF → wordAtPc s = encodeKk 0xC x kk →
      ∃ t, tick b s = .next t ∧ t.status = .running ∧ t.getV x = b &&& kk)

/-- Timer update: on every tick that raises no fault each timer not written by the instruction is
decremented unless zero; one that is written is decremented from the written value; on a faulting tick
neither changes (R170). -/
def Obligations.TimersCountEveryTick : Prop :=
  ∀ (b : Byte) (s t : State), tick b s = .next t →
    (t.status ≠ .running → t.dt = s.dt ∧ t.st = s.st) ∧
    (t.status = .running → ∃ ins, decode (wordAtPc s) = .ok ins ∧
      (t.dt.toNat = match ins with
        | .ldDtVx x => (s.getV x).toNat - 1
        | _ => s.dt.toNat - 1) ∧
      (t.st.toNat = match ins with
        | .ldStVx x => (s.getV x).toNat - 1
        | _ => s.st.toNat - 1))

/-- Timers count ticks: after k ticks none of which writes dt, dt is max(dt - k, 0) (R258). -/
def Obligations.DelayTimerAfterManyTicks : Prop :=
  ∀ (k : Nat) (s t : State), TicksWithoutLdDt k s t → t.dt.toNat = s.dt.toNat - k

/-! ## Keyboard -/

/-- SKP and SKNP: skip when the key of Vx is, or is not, latched as pressed; the comparison is on all 8
bits and only 0xFF reads as pressed; nothing but pc changes (R183, R184, R181, R182). -/
def Obligations.KeySkips : Prop :=
  ∀ (x : RegIx) (s : State),
    let skipped := s.pc + 2
    let pressed := s.peek s.cfg.keyPressedAddr = 0xFF ∧ s.peek s.cfg.keyValueAddr = s.getV x
    (decode (encodeKk 0xE x 0x9E) = .ok (.skp x) ∧
      ∃ t, exec (.skp x) s = .next t ∧ Frame [.pc] s t ∧
        (pressed → t.pc = skipped) ∧ (¬pressed → t.pc = s.pc)) ∧
    (decode (encodeKk 0xE x 0xA1) = .ok (.sknp x) ∧
      ∃ t, exec (.sknp x) s = .next t ∧ Frame [.pc] s t ∧
        (pressed → t.pc = s.pc) ∧ (¬pressed → t.pc = skipped))

/-- LD Vx, K: while no key is latched, pc goes back to this instruction and nothing else changes; with
one latched its value goes to Vx and pc stays (R185). -/
def Obligations.WaitForKey : Prop :=
  ∀ (x : RegIx) (s : State),
    decode (encodeKk 0xF x 0x0A) = .ok (.ldVxK x) ∧
    (s.peek s.cfg.keyPressedAddr ≠ 0xFF → ∃ t, exec (.ldVxK x) s = .next t ∧
      t.pc = s.pc - 2 ∧ Frame [.pc] s t) ∧
    (s.peek s.cfg.keyPressedAddr = 0xFF → ∃ t, exec (.ldVxK x) s = .next t ∧
      t.getV x = s.peek s.cfg.keyValueAddr ∧ OnlyV x s t)

/-- The wait is a busy wait: with no key latched and LD Vx, K at pc, any number of ticks with no key
pressed between them leaves pc, the registers and memory as they are, Running, with dt counted down
(R185, R257). That no host move stands between the steps of a run is the model's choice (log entry 4). -/
def Obligations.WaitingForAKeyGoesOnForEver : Prop :=
  ∀ (x : RegIx) (k : Nat) (s : State), s.status = .running → s.pc.toNat + 1 ≤ 0xFFF →
    wordAtPc s = encodeKk 0xF x 0x0A → s.peek s.cfg.keyPressedAddr ≠ 0xFF →
    ∃ t, SafeRun k s t ∧ t.pc = s.pc ∧ (∀ j, t.getV j = s.getV j) ∧
      (∀ a, t.peek a = s.peek a) ∧ t.i = s.i ∧ t.dt.toNat = s.dt.toNat - k

/-! ## Display -/

/-- CLS: every framebuffer byte zero, every other byte unchanged, one ScreenCleared (R200). -/
def Obligations.ClearScreen : Prop :=
  ∀ s : State,
    decode 0x00E0 = .ok .cls ∧
    ∃ t, exec .cls s = .next t ∧ (∀ k < 256, t.peek (s.cfg.fbBase + k) = 0x00) ∧
      (∀ a, a < s.cfg.fbBase ∨ s.cfg.fbBase + 256 ≤ a → t.peek a = s.peek a) ∧
      t.events = s.events ++ [.screenCleared] ∧ Frame [.mem, .events] s t

/-- DRW: with the sprite's bytes inside memory it completes, VF is 1 exactly when a lit pixel was
turned off and else 0, no other register and no byte outside the framebuffer changes; past 0xFFF the
fault with the lowest address, and nothing is drawn (R202, R203, R204, R55). That the fault records pc - 2 follows from
R220 and R24 for a tick; for Execute alone it is the model's (DEDUCED, log entry 9). -/
def Obligations.DrawSetsCollisionFlag : Prop :=
  ∀ (x y : RegIx) (n : Nibble) (s : State),
    decode (encodeXyn 0xD x y n) = .ok (.drw x y n) ∧
    (n = 0 ∨ s.i.toNat + n.toNat ≤ 0x1000 → ∃ t, exec (.drw x y n) s = .next t ∧
      (SomePixelTurnedOff s t → t.getV 15 = 1) ∧ (¬SomePixelTurnedOff s t → t.getV 15 = 0) ∧
      (∀ j, j ≠ 15 → t.getV j = s.getV j) ∧
      (∀ a, a < s.cfg.fbBase ∨ s.cfg.fbBase + 256 ≤ a → t.peek a = s.peek a) ∧
      Frame [.mem, .v, .events] s t) ∧
    (n ≠ 0 → 0x1000 < s.i.toNat + n.toNat → ∃ t addr, exec (.drw x y n) s = .next t ∧
      LowestOutOfRange s.i.toNat (s.i.toNat + n.toNat - 1) addr ∧
      Raises (.addressOutOfRange (s.pc - 2) addr) s t)

/-- DRW pixel by pixel: with the sprite's bytes outside the framebuffer, every pixel of the screen ends
as the exclusive or of what it was and what the sprite, wrapped at both edges, sets there; n = 0 changes
no pixel, whatever I is (R31, R201, R202, R203). -/
def Obligations.DrawXorsTheSpriteWithWraparound : Prop :=
  ∀ (x y : RegIx) (n : Nibble) (s t : State), SpriteApart s n.toNat →
    exec (.drw x y n) s = .next t →
    ∀ px py, px < 64 → py < 32 →
      t.pixel px py =
        (s.pixel px py ^^ spriteCovers s (s.getV x) (s.getV y) s.i.toNat n.toNat px py)

/-- DRW of any sprite that exists, one that lies in the framebuffer it draws on included: every pixel of
the screen ends as the rows drawn in order leave it, each row's byte read just before its own row (R202,
D16). -/
def Obligations.DrawReadsEachRowJustBeforeDrawingIt : Prop :=
  ∀ (x y : RegIx) (n : Nibble) (s t : State), n = 0 ∨ s.i.toNat + n.toNat ≤ 0x1000 →
    exec (.drw x y n) s = .next t →
    ∀ px py, px < 64 → py < 32 →
      t.pixel px py = screenAfterRows s (s.getV x) (s.getV y) s.i.toNat n.toNat px py

/-- Double draw: the same sprite drawn again at the same coordinates, after anything that left the
framebuffer, I and the sprite's bytes alone, restores every framebuffer byte, and the second flag is 1
exactly when the first draw turned a pixel on. The second draw may name other registers, as long as they
hold the same coordinates (R207). -/
def Obligations.DrawingTwiceRestoresTheScreen : Prop :=
  ∀ (x y x' y' : RegIx) (n : Nibble) (s t t' u : State), SpriteApart s n.toNat →
    exec (.drw x y n) s = .next t →
    t'.cfg = t.cfg → t'.i = t.i →
    (∀ k < 256, t'.peek (t.cfg.fbBase + k) = t.peek (t.cfg.fbBase + k)) →
    (∀ r < n.toNat, t'.peek (t.i.toNat + r) = t.peek (t.i.toNat + r)) →
    t'.getV x' = s.getV x → t'.getV y' = s.getV y →
    exec (.drw x' y' n) t' = .next u →
    (∀ k < 256, u.peek (s.cfg.fbBase + k) = s.peek (s.cfg.fbBase + k)) ∧
    (u.getV 15 = 1 ↔ SomePixelTurnedOff t s)

/-- The notifications of DRW: one ByteUpdated for each destination byte, in the order of the rows, first
byte before second, each with the value the byte ends with; none for n = 0 (R202, R205). -/
def Obligations.DrawNotifiesEveryDestinationByte : Prop :=
  ∀ (x y : RegIx) (n : Nibble) (s t : State), n = 0 ∨ s.i.toNat + n.toNat ≤ 0x1000 →
    exec (.drw x y n) s = .next t →
    t.events = s.events ++ (blitOffsets (s.getV x) (s.getV y) n.toNat).map
      fun k => .byteUpdated k (t.peek (s.cfg.fbBase + k))

/-- Collision law: XOR differs from OR exactly when a bit lit in the old byte is set in the new operand
(R204). -/
def Obligations.CollisionIsAnOverlap : Prop :=
  ∀ old v : Byte, collides old v = true ↔ ∃ b < 8, old.getLsbD b = true ∧ v.getLsbD b = true

/-! ## The tick, faults and the host -/

/-- A step runs the instruction decoded from the two bytes at pc: Execute sees pc + 2, no event and the
step's random byte, and the timers are updated unless it raised a fault (R229, R170, R24). -/
def Obligations.StepRunsTheDecodedInstruction : Prop :=
  ∀ (s t : State) (ins : Instr), s.status = .running → s.pc.toNat + 1 ≤ 0xFFF →
    decode (wordAtPc s) = .ok ins →
    exec ins (executeView (Config.randomByte s.rndIndex) { s with rndIndex := s.rndIndex + 1 }) =
      .next t →
    step s = .next (if t.status = .running
      then { t with dt := if t.dt = 0 then 0 else t.dt - 1, st := if t.st = 0 then 0 else t.st - 1 }
      else t)

/-- The instruction fetch: the big-endian word of the bytes at pc and pc + 1; where the second lies
above 0xFFF the tick halts with the lowest failing address, before pc is advanced (R52). -/
def Obligations.InstructionFetch : Prop :=
  ∀ (b : Byte) (s : State),
    (s.pc.toNat + 1 ≤ 0xFFF → ∃ w, s.fetch = .ok w ∧
      w.toNat = 256 * (s.peek s.pc.toNat).toNat + (s.peek (s.pc.toNat + 1)).toNat) ∧
    (s.status = .running → 0xFFF < s.pc.toNat + 1 →
      ∃ t addr, tick b s = .next t ∧ LowestOutOfRange s.pc.toNat (s.pc.toNat + 1) addr ∧
        t.status = .halted (.addressOutOfRange s.pc addr) ∧ t.pc = s.pc)

/-- A word that does not decode halts the block with the word, pc at A + 2 (R222, R77). -/
def Obligations.IllegalWordHalts : Prop :=
  ∀ (b : Byte) (s : State), s.status = .running → s.pc.toNat + 1 ≤ 0xFFF →
    legalWord (wordAtPc s) = false →
    ∃ t, tick b s = .next t ∧ t.status = .halted (.decodeError s.pc (wordAtPc s)) ∧
      t.pc = s.pc + 2

/-- A tick request while Halted is refused (R233). -/
def Obligations.HaltedBlockTakesNoTick : Prop :=
  ∀ (b : Byte) (f : Fault) (s : State), s.status = .halted f →
    tick b s = .refused .tickWhileHalted ∧ step s = .refused .tickWhileHalted

/-- Which fault an instruction raises, and that no other condition faults (R220, R133): every
instruction completes, and from Running it ends Halted exactly in the table's cases. That the fault of a
memory instruction records pc - 2 follows from R220 and R24 for a tick; for Execute alone it is the
model's (DEDUCED, log entry 9). -/
def Obligations.ExecuteFaultsExactlyAsTheTable : Prop :=
  ∀ (ins : Instr) (s : State), s.status = .running →
    ∃ t, exec ins s = .next t ∧
      t.status = match instrFault ins s with
        | some f => .halted f
        | none => .running

/-- A tick reports at most one fault, in the order fetch, decode, instruction (R225, R232). -/
def Obligations.TickReportsTheFirstFault : Prop :=
  ∀ (b : Byte) (s : State), s.status = .running →
    ∃ t, tick b s = .next t ∧
      t.status = match tickFault b s with
        | some f => .halted f
        | none => .running

/-- Faults are precise: a faulting tick changes no memory, register, timer, stack entry or depth, its
event list is empty, the fault records the address fetched from, and pc is that address after a fetch
fault and that address plus 2 after any other (R221, R226). -/
def Obligations.FaultsArePrecise : Prop :=
  ∀ (b : Byte) (s t : State) (f : Fault), tick b s = .next t → t.status = .halted f →
    faultAddress f = s.pc ∧ t.events = [] ∧ t.cfg = s.cfg ∧
    (∀ p, p ∉ [.pc, .status, .events] → Part.same p s t) ∧
    t.pc = if 0xFFF < s.pc.toNat + 1 then s.pc else s.pc + 2

/-- pressKey(v) for v in 0..15 sets both bytes of the latch and nothing else (R186). -/
def Obligations.PressKeySetsTheLatch : Prop :=
  ∀ (v : Byte) (s : State), v.toNat ≤ 15 →
    ∃ t, pressKey v s = .next t ∧ t.peek s.cfg.keyPressedAddr = 0xFF ∧
      t.peek s.cfg.keyValueAddr = v ∧
      (∀ a, a ≠ s.cfg.keyPressedAddr → a ≠ s.cfg.keyValueAddr → t.peek a = s.peek a) ∧
      Frame [.mem] s t

/-- releaseKey() clears the press flag and leaves every other byte, the value byte among them (R187). -/
def Obligations.ReleaseKeyClearsTheFlag : Prop :=
  ∀ s : State, ∃ t, releaseKey s = .next t ∧ t.peek s.cfg.keyPressedAddr = 0x00 ∧
    (∀ a, a ≠ s.cfg.keyPressedAddr → t.peek a = s.peek a) ∧ Frame [.mem] s t

/-- reset(rom) builds the state of R250 and R36 from a ROM of at most 3584 bytes, whatever the state
before, and no other move of the host takes a Halted block back to Running (R250). -/
def Obligations.ResetBuildsTheInitialState : Prop :=
  ∀ s : State,
    (∀ rom : List Byte, rom.length ≤ 3584 → ∃ t, hostReset rom s = .next t ∧ t.cfg = s.cfg ∧
      (∀ j, t.getV j = 0) ∧ t.i = 0 ∧ t.dt = 0 ∧ t.st = 0 ∧ t.sp.val = 0 ∧
      (∀ k : Fin 16, t.stack[k] = 0) ∧ t.pc = 0x200 ∧ t.status = .running ∧
      (∀ k : Fin 80, t.peek k.val = s.cfg.font[k]) ∧
      (∀ k : Fin rom.length, t.peek (0x200 + k.val) = rom[k]) ∧
      (∀ a, 80 ≤ a → a < 0x200 ∨ 0x200 + rom.length ≤ a → t.peek a = 0)) ∧
    (∀ (m : HostMove) (t : State), s.status ≠ .running → hostMove m s = .next t →
      t.status = .running → ∃ rom, m = .reset rom)

/-- The moves the host does not have: pressKey above 15, and reset with a ROM of more than 3584 bytes.
That such a request is answered by a refusal with a name is the model's form of R188 and R252 (log
entry 3). -/
def Obligations.MovesTheHostDoesNotHaveAreRefused : Prop :=
  ∀ (v : Byte) (rom : List Byte) (s : State),
    (15 < v.toNat → pressKey v s = .refused .notAKey) ∧
    (3584 < rom.length → hostReset rom s = .refused .romTooLong)

/-- The state the interface starts from is that of R36 with an empty ROM and the default parameters
(R36, R6). -/
def Obligations.ResetStateHoldsTheSpecValues : Prop :=
  State.reset.pc = 0x200 ∧ State.reset.i = 0 ∧ State.reset.dt = 0 ∧ State.reset.st = 0 ∧
  State.reset.sp.val = 0 ∧ State.reset.status = .running ∧
  (∀ j, State.reset.getV j = 0) ∧ (∀ k : Fin 16, State.reset.stack[k] = 0) ∧
  (∀ k : Fin 80, State.reset.peek k.val = State.reset.cfg.font[k]) ∧
  (∀ a, 80 ≤ a → State.reset.peek a = 0) ∧
  State.reset.cfg.fbBase = 0x100 ∧ State.reset.cfg.keyPressedAddr = 0x050 ∧
  State.reset.cfg.keyValueAddr = 0x051

/-! ## The whole machine -/

/-- The invariant holds at reset. -/
def Obligations.ResetMeetsTheInvariant : Prop := Inv State.reset

/-- Every step keeps the invariant, from every state that meets it (R20, R28, R205, R221). -/
def Obligations.StepKeepsTheInvariant : Prop :=
  ∀ s t : State, Inv s → step s = .next t → Inv t

/-- Every move of the host keeps the invariant (R235). -/
def Obligations.HostMovesKeepTheInvariant : Prop :=
  ∀ (m : HostMove) (s t : State), Inv s → hostMove m s = .next t → Inv t

/-- The frame of every instruction: when it raises no fault it changes only the parts its rule names
(R22, R25, R26, R27, R28, R34, R205, R208). -/
def Obligations.EveryInstructionKeepsItsFrame : Prop :=
  ∀ (ins : Instr) (s t : State), instrFault ins s = none → exec ins s = .next t →
    Frame (mayChange ins) s t

/-- A byte of memory changes only where its instruction stores: CLS and DRW write inside the
framebuffer, LD B, Vx at I to I + 2, LD [I], Vx at I to I + x, and no other instruction writes memory
(R56, R152, R154, R200, R202, R208). -/
def Obligations.MemoryChangesOnlyWhereStored : Prop :=
  ∀ (ins : Instr) (s t : State) (a : Nat), exec ins s = .next t → ¬storesAt ins s a →
    t.peek a = s.peek a

/-- A register changes only where R23's table says that its instruction writes it (R23). -/
def Obligations.RegistersChangeOnlyAsTheTableSays : Prop :=
  ∀ (ins : Instr) (s t : State) (j : RegIx), exec ins s = .next t → ¬writesRegister ins j →
    t.getV j = s.getV j

/-- The instructions that write VF as a side effect leave 0 or 1 in it (R22). -/
def Obligations.FlagWritesAreZeroOrOne : Prop :=
  ∀ (x y : RegIx) (n : Nibble) (s t : State) (ins : Instr),
    ins ∈ [.addReg x y, .sub x y, .shr x y, .subn x y, .shl x y, .drw x y n] →
    instrFault ins s = none → exec ins s = .next t → t.getV 15 = 0 ∨ t.getV 15 = 1

/-- How each instruction leaves pc, after the tick's + 2: jumps, CALL and RET replace it, skips add 2
when their test holds, LD Vx, K subtracts 2 when no key is latched, every other instruction leaves it,
and so does a CALL, a RET or any other instruction that faults (R25, R100 to R107, R183 to R185). -/
def Obligations.ProgramCounterLaw : Prop :=
  ∀ (ins : Instr) (s t : State), exec ins s = .next t → PcAfter ins s t.pc

/-- Only RND reads the random byte, and no instruction reads the sound timer: changing either before any
other instruction (for st: any but LD ST, Vx) changes only that field after it (R27, R174, R176). -/
def Obligations.OnlyRndReadsTheRandomByte : Prop :=
  ∀ (ins : Instr) (s t : State) (b : Byte), exec ins s = .next t →
    ((∀ x kk, ins ≠ .rnd x kk) → exec ins { s with rnd := b } = .next { t with rnd := b }) ∧
    ((∀ x, ins ≠ .ldStVx x) → exec ins { s with st := b } = .next { t with st := b })

/-- The bytes of the keypad latch change only by host moves and program stores: no instruction but
LD [I], Vx and LD B, Vx changes either of them, CLS and DRW included (R189, R200). -/
def Obligations.InstructionsKeepTheKeypadLatch : Prop :=
  ∀ (ins : Instr) (s t : State), (∀ x, ins ≠ .storeRegs x ∧ ins ≠ .ldB x) →
    exec ins s = .next t →
    t.peek t.cfg.keyPressedAddr = s.peek s.cfg.keyPressedAddr ∧
    t.peek t.cfg.keyValueAddr = s.peek s.cfg.keyValueAddr
end

