-- ==== Sys2Proof/Laws/Decode.lean ====
section
/-! SUPPORT. The bits of an encoded word, its fields, and how a word is rebuilt from its fields. -/

namespace Sys2Proof

theorem getLsbD_encodeNnn (a : Nibble) (nnn : Addr) (k : Nat) :
    (encodeNnn a nnn).getLsbD k = if k < 12 then nnn.getLsbD k else a.getLsbD (k - 12) :=
  BitVec.getLsbD_append

theorem getLsbD_encodeKk (a : Nibble) (x : RegIx) (kk : Byte) (k : Nat) :
    (encodeKk a x kk).getLsbD k =
      if k < 8 then kk.getLsbD k
      else if k < 12 then (BitVec.ofFin x : Nibble).getLsbD (k - 8) else a.getLsbD (k - 12) := by
  refine (BitVec.getLsbD_append (y := kk)).trans ?_
  by_cases h : k < 8
  · simp only [h, if_true]
  · simp only [h, if_false]
    refine BitVec.getLsbD_append.trans ?_
    have e : (k - 8 < 4) = (k < 12) := by simp; omega
    have e' : k - 8 - 4 = k - 12 := by omega
    simp only [e, e']

theorem getLsbD_encodeXyn (a : Nibble) (x y : RegIx) (n : Nibble) (k : Nat) :
    (encodeXyn a x y n).getLsbD k =
      if k < 4 then n.getLsbD k
      else if k < 8 then (BitVec.ofFin y : Nibble).getLsbD (k - 4)
      else if k < 12 then (BitVec.ofFin x : Nibble).getLsbD (k - 8) else a.getLsbD (k - 12) := by
  refine (BitVec.getLsbD_append (y := n)).trans ?_
  by_cases h : k < 4
  · simp only [h, if_true]
  · simp only [h, if_false]
    refine (BitVec.getLsbD_append (y := (BitVec.ofFin y : Nibble))).trans ?_
    have e : (k - 4 < 4) = (k < 8) := by simp; omega
    simp only [e]
    by_cases h' : k < 8
    · simp only [h', if_true]
    · simp only [h', if_false]
      refine BitVec.getLsbD_append.trans ?_
      have e2 : k - 4 - 4 = k - 8 := by omega
      have e3 : (k - 8 < 4) = (k < 12) := by simp; omega
      have e4 : k - 8 - 4 = k - 12 := by omega
      simp only [e2, e3, e4]

/-! ## Fields of encoded words -/

variable (a : Nibble) (x y : RegIx) (kk : Byte) (nnn : Addr) (n : Nibble)

@[simp] theorem fieldA_encodeNnn : fieldA (encodeNnn a nnn) = a := by
  ext i h; simp [fieldA, getLsbD_encodeNnn, h]

@[simp] theorem fieldNnn_encodeNnn : fieldNnn (encodeNnn a nnn) = nnn := by
  ext i h; simp [fieldNnn, getLsbD_encodeNnn, h]

@[simp] theorem fieldA_encodeKk : fieldA (encodeKk a x kk) = a := by
  ext i h
  have : ¬(12 + i < 8) := by omega
  simp [fieldA, getLsbD_encodeKk, h, this]

@[simp] theorem fieldKk_encodeKk : fieldKk (encodeKk a x kk) = kk := by
  ext i h; simp [fieldKk, getLsbD_encodeKk, h]

@[simp] theorem fieldX_encodeKk : fieldX (encodeKk a x kk) = x := by
  have : (encodeKk a x kk).extractLsb' 8 4 = BitVec.ofFin x := by
    ext i h
    have h1 : ¬(8 + i < 8) := by omega
    have h2 : 8 + i < 12 := by omega
    simp [getLsbD_encodeKk, h, h1, h2]
  simp [fieldX, this]

@[simp] theorem fieldA_encodeXyn : fieldA (encodeXyn a x y n) = a := by
  ext i h
  have h1 : ¬(12 + i < 8) := by omega
  have h2 : ¬(12 + i < 4) := by omega
  simp [fieldA, getLsbD_encodeXyn, h, h1, h2]

@[simp] theorem fieldN_encodeXyn : fieldN (encodeXyn a x y n) = n := by
  ext i h; simp [fieldN, getLsbD_encodeXyn, h]

@[simp] theorem fieldX_encodeXyn : fieldX (encodeXyn a x y n) = x := by
  have : (encodeXyn a x y n).extractLsb' 8 4 = BitVec.ofFin x := by
    ext i h
    have h1 : ¬(8 + i < 8) := by omega
    have h2 : 8 + i < 12 := by omega
    have h3 : ¬(8 + i < 4) := by omega
    simp [getLsbD_encodeXyn, h, h1, h2, h3]
  simp [fieldX, this]

@[simp] theorem fieldY_encodeXyn : fieldY (encodeXyn a x y n) = y := by
  have : (encodeXyn a x y n).extractLsb' 4 4 = BitVec.ofFin y := by
    ext i h
    have h1 : ¬(4 + i < 4) := by omega
    have h2 : 4 + i < 8 := by omega
    simp [getLsbD_encodeXyn, h, h1, h2]
  simp [fieldY, this]

/-! ## A word is its fields -/

theorem encodeNnn_fields (w : Word) : encodeNnn (fieldA w) (fieldNnn w) = w := by
  refine BitVec.eq_of_getLsbD_eq fun i hi => ?_
  rw [getLsbD_encodeNnn]
  by_cases h : i < 12
  · simp [fieldNnn, h]
  · have h1 : i - 12 < 4 := by omega
    have h2 : 12 + (i - 12) = i := by omega
    simp [fieldA, h, h1, h2]

theorem encodeKk_fields (w : Word) : encodeKk (fieldA w) (fieldX w) (fieldKk w) = w := by
  refine BitVec.eq_of_getLsbD_eq fun i hi => ?_
  rw [getLsbD_encodeKk]
  by_cases h : i < 8
  · simp [fieldKk, h]
  · by_cases h' : i < 12
    · have h1 : i - 8 < 4 := by omega
      have h2 : 8 + (i - 8) = i := by omega
      have e : (BitVec.ofFin (fieldX w) : Nibble) = w.extractLsb' 8 4 := rfl
      simp only [h, h', if_true, if_false, e]
      simp [h1, h2]
    · have h1 : i - 12 < 4 := by omega
      have h2 : 12 + (i - 12) = i := by omega
      simp [fieldA, h, h', h1, h2]

theorem encodeXyn_fields (w : Word) :
    encodeXyn (fieldA w) (fieldX w) (fieldY w) (fieldN w) = w := by
  refine BitVec.eq_of_getLsbD_eq fun i hi => ?_
  rw [getLsbD_encodeXyn]
  by_cases h : i < 4
  · simp [fieldN, h]
  · by_cases h' : i < 8
    · have h1 : i - 4 < 4 := by omega
      have h2 : 4 + (i - 4) = i := by omega
      have e : (BitVec.ofFin (fieldY w) : Nibble) = w.extractLsb' 4 4 := rfl
      simp only [h, h', if_true, if_false, e]
      simp [h1, h2]
    · by_cases h'' : i < 12
      · have h1 : i - 8 < 4 := by omega
        have h2 : 8 + (i - 8) = i := by omega
        have e : (BitVec.ofFin (fieldX w) : Nibble) = w.extractLsb' 8 4 := rfl
        simp only [h, h', h'', if_true, if_false, e]
        simp [h1, h2]
      · have h1 : i - 12 < 4 := by omega
        have h2 : 12 + (i - 12) = i := by omega
        simp [fieldA, h, h', h'', h1, h2]

/-- The bytes of a word, read big-endian, are the word (R52). -/
theorem wordOfBytes_bytes (w : Word) :
    wordOfBytes (w.extractLsb' 8 8) (w.extractLsb' 0 8) = w := by
  refine BitVec.eq_of_getLsbD_eq fun i hi => ?_
  refine BitVec.getLsbD_append.trans ?_
  by_cases h : i < 8
  · simp [h]
  · have h1 : i - 8 < 8 := by omega
    have h2 : 8 + (i - 8) = i := by omega
    simp [h, h1, h2]

/-- The byte decoder on the bytes of a word is the word decoder (R70). -/
theorem decodeBytes_bytesOfWord (w : Word) (rest : List Byte) :
    decodeBytes (bytesOfWord w ++ rest) =
      match decode w with
      | .ok i => .ok (i, rest)
      | .error e => .error e := by
  have hd : decode (wordOfBytes (w.extractLsb' 8 8) (w.extractLsb' 0 8)) = decode w :=
    congrArg decode (wordOfBytes_bytes w)
  rw [← hd]
  rfl

end Sys2Proof
end

