-- ==== Sys2Proof/Laws/State.lean ====
section
/-! SUPPORT. One lemma for each field of each update of the state, so that no later proof unfolds a
record update. -/

namespace Sys2Proof.Machine.State

variable (s : State)

/-! `poke` -/

@[simp] theorem poke_mem (a : Nat) (b : Byte) : (s.poke a b).mem = Memory.write s.cfg s.mem a b := rfl
@[simp] theorem poke_v (a : Nat) (b : Byte) : (s.poke a b).v = s.v := rfl
@[simp] theorem poke_i (a : Nat) (b : Byte) : (s.poke a b).i = s.i := rfl
@[simp] theorem poke_pc (a : Nat) (b : Byte) : (s.poke a b).pc = s.pc := rfl
@[simp] theorem poke_dt (a : Nat) (b : Byte) : (s.poke a b).dt = s.dt := rfl
@[simp] theorem poke_st (a : Nat) (b : Byte) : (s.poke a b).st = s.st := rfl
@[simp] theorem poke_stack (a : Nat) (b : Byte) : (s.poke a b).stack = s.stack := rfl
@[simp] theorem poke_sp (a : Nat) (b : Byte) : (s.poke a b).sp = s.sp := rfl
@[simp] theorem poke_status (a : Nat) (b : Byte) : (s.poke a b).status = s.status := rfl
@[simp] theorem poke_cfg (a : Nat) (b : Byte) : (s.poke a b).cfg = s.cfg := rfl
@[simp] theorem poke_events (a : Nat) (b : Byte) : (s.poke a b).events = s.events := rfl
@[simp] theorem poke_rnd (a : Nat) (b : Byte) : (s.poke a b).rnd = s.rnd := rfl
@[simp] theorem poke_rndIndex (a : Nat) (b : Byte) : (s.poke a b).rndIndex = s.rndIndex := rfl

/-! `setV` -/

@[simp] theorem setV_mem (x : RegIx) (b : Byte) : (s.setV x b).mem = s.mem := rfl
@[simp] theorem setV_v (x : RegIx) (b : Byte) : (s.setV x b).v = s.v.set x b := rfl
@[simp] theorem setV_i (x : RegIx) (b : Byte) : (s.setV x b).i = s.i := rfl
@[simp] theorem setV_pc (x : RegIx) (b : Byte) : (s.setV x b).pc = s.pc := rfl
@[simp] theorem setV_dt (x : RegIx) (b : Byte) : (s.setV x b).dt = s.dt := rfl
@[simp] theorem setV_st (x : RegIx) (b : Byte) : (s.setV x b).st = s.st := rfl
@[simp] theorem setV_stack (x : RegIx) (b : Byte) : (s.setV x b).stack = s.stack := rfl
@[simp] theorem setV_sp (x : RegIx) (b : Byte) : (s.setV x b).sp = s.sp := rfl
@[simp] theorem setV_status (x : RegIx) (b : Byte) : (s.setV x b).status = s.status := rfl
@[simp] theorem setV_cfg (x : RegIx) (b : Byte) : (s.setV x b).cfg = s.cfg := rfl
@[simp] theorem setV_events (x : RegIx) (b : Byte) : (s.setV x b).events = s.events := rfl
@[simp] theorem setV_rnd (x : RegIx) (b : Byte) : (s.setV x b).rnd = s.rnd := rfl
@[simp] theorem setV_rndIndex (x : RegIx) (b : Byte) : (s.setV x b).rndIndex = s.rndIndex := rfl

/-! `setI` -/

@[simp] theorem setI_mem (w : Word) : (s.setI w).mem = s.mem := rfl
@[simp] theorem setI_v (w : Word) : (s.setI w).v = s.v := rfl
@[simp] theorem setI_i (w : Word) : (s.setI w).i = w := rfl
@[simp] theorem setI_pc (w : Word) : (s.setI w).pc = s.pc := rfl
@[simp] theorem setI_dt (w : Word) : (s.setI w).dt = s.dt := rfl
@[simp] theorem setI_st (w : Word) : (s.setI w).st = s.st := rfl
@[simp] theorem setI_stack (w : Word) : (s.setI w).stack = s.stack := rfl
@[simp] theorem setI_sp (w : Word) : (s.setI w).sp = s.sp := rfl
@[simp] theorem setI_status (w : Word) : (s.setI w).status = s.status := rfl
@[simp] theorem setI_cfg (w : Word) : (s.setI w).cfg = s.cfg := rfl
@[simp] theorem setI_events (w : Word) : (s.setI w).events = s.events := rfl
@[simp] theorem setI_rnd (w : Word) : (s.setI w).rnd = s.rnd := rfl
@[simp] theorem setI_rndIndex (w : Word) : (s.setI w).rndIndex = s.rndIndex := rfl

/-! `setPc` -/

@[simp] theorem setPc_mem (w : Word) : (s.setPc w).mem = s.mem := rfl
@[simp] theorem setPc_v (w : Word) : (s.setPc w).v = s.v := rfl
@[simp] theorem setPc_i (w : Word) : (s.setPc w).i = s.i := rfl
@[simp] theorem setPc_pc (w : Word) : (s.setPc w).pc = w := rfl
@[simp] theorem setPc_dt (w : Word) : (s.setPc w).dt = s.dt := rfl
@[simp] theorem setPc_st (w : Word) : (s.setPc w).st = s.st := rfl
@[simp] theorem setPc_stack (w : Word) : (s.setPc w).stack = s.stack := rfl
@[simp] theorem setPc_sp (w : Word) : (s.setPc w).sp = s.sp := rfl
@[simp] theorem setPc_status (w : Word) : (s.setPc w).status = s.status := rfl
@[simp] theorem setPc_cfg (w : Word) : (s.setPc w).cfg = s.cfg := rfl
@[simp] theorem setPc_events (w : Word) : (s.setPc w).events = s.events := rfl
@[simp] theorem setPc_rnd (w : Word) : (s.setPc w).rnd = s.rnd := rfl
@[simp] theorem setPc_rndIndex (w : Word) : (s.setPc w).rndIndex = s.rndIndex := rfl

/-! `setDt` -/

@[simp] theorem setDt_mem (b : Byte) : (s.setDt b).mem = s.mem := rfl
@[simp] theorem setDt_v (b : Byte) : (s.setDt b).v = s.v := rfl
@[simp] theorem setDt_i (b : Byte) : (s.setDt b).i = s.i := rfl
@[simp] theorem setDt_pc (b : Byte) : (s.setDt b).pc = s.pc := rfl
@[simp] theorem setDt_dt (b : Byte) : (s.setDt b).dt = b := rfl
@[simp] theorem setDt_st (b : Byte) : (s.setDt b).st = s.st := rfl
@[simp] theorem setDt_stack (b : Byte) : (s.setDt b).stack = s.stack := rfl
@[simp] theorem setDt_sp (b : Byte) : (s.setDt b).sp = s.sp := rfl
@[simp] theorem setDt_status (b : Byte) : (s.setDt b).status = s.status := rfl
@[simp] theorem setDt_cfg (b : Byte) : (s.setDt b).cfg = s.cfg := rfl
@[simp] theorem setDt_events (b : Byte) : (s.setDt b).events = s.events := rfl
@[simp] theorem setDt_rnd (b : Byte) : (s.setDt b).rnd = s.rnd := rfl
@[simp] theorem setDt_rndIndex (b : Byte) : (s.setDt b).rndIndex = s.rndIndex := rfl

/-! `setSt` -/

@[simp] theorem setSt_mem (b : Byte) : (s.setSt b).mem = s.mem := rfl
@[simp] theorem setSt_v (b : Byte) : (s.setSt b).v = s.v := rfl
@[simp] theorem setSt_i (b : Byte) : (s.setSt b).i = s.i := rfl
@[simp] theorem setSt_pc (b : Byte) : (s.setSt b).pc = s.pc := rfl
@[simp] theorem setSt_dt (b : Byte) : (s.setSt b).dt = s.dt := rfl
@[simp] theorem setSt_st (b : Byte) : (s.setSt b).st = b := rfl
@[simp] theorem setSt_stack (b : Byte) : (s.setSt b).stack = s.stack := rfl
@[simp] theorem setSt_sp (b : Byte) : (s.setSt b).sp = s.sp := rfl
@[simp] theorem setSt_status (b : Byte) : (s.setSt b).status = s.status := rfl
@[simp] theorem setSt_cfg (b : Byte) : (s.setSt b).cfg = s.cfg := rfl
@[simp] theorem setSt_events (b : Byte) : (s.setSt b).events = s.events := rfl
@[simp] theorem setSt_rnd (b : Byte) : (s.setSt b).rnd = s.rnd := rfl
@[simp] theorem setSt_rndIndex (b : Byte) : (s.setSt b).rndIndex = s.rndIndex := rfl

/-! `setResultFlag` -/

@[simp] theorem setResultFlag_mem (x : RegIx) (rf : Byte × Byte) : (s.setResultFlag x rf).mem = s.mem := rfl
@[simp] theorem setResultFlag_v (x : RegIx) (rf : Byte × Byte) : (s.setResultFlag x rf).v = (s.v.set x rf.1).set vf rf.2 := rfl
@[simp] theorem setResultFlag_i (x : RegIx) (rf : Byte × Byte) : (s.setResultFlag x rf).i = s.i := rfl
@[simp] theorem setResultFlag_pc (x : RegIx) (rf : Byte × Byte) : (s.setResultFlag x rf).pc = s.pc := rfl
@[simp] theorem setResultFlag_dt (x : RegIx) (rf : Byte × Byte) : (s.setResultFlag x rf).dt = s.dt := rfl
@[simp] theorem setResultFlag_st (x : RegIx) (rf : Byte × Byte) : (s.setResultFlag x rf).st = s.st := rfl
@[simp] theorem setResultFlag_stack (x : RegIx) (rf : Byte × Byte) : (s.setResultFlag x rf).stack = s.stack := rfl
@[simp] theorem setResultFlag_sp (x : RegIx) (rf : Byte × Byte) : (s.setResultFlag x rf).sp = s.sp := rfl
@[simp] theorem setResultFlag_status (x : RegIx) (rf : Byte × Byte) : (s.setResultFlag x rf).status = s.status := rfl
@[simp] theorem setResultFlag_cfg (x : RegIx) (rf : Byte × Byte) : (s.setResultFlag x rf).cfg = s.cfg := rfl
@[simp] theorem setResultFlag_events (x : RegIx) (rf : Byte × Byte) : (s.setResultFlag x rf).events = s.events := rfl
@[simp] theorem setResultFlag_rnd (x : RegIx) (rf : Byte × Byte) : (s.setResultFlag x rf).rnd = s.rnd := rfl
@[simp] theorem setResultFlag_rndIndex (x : RegIx) (rf : Byte × Byte) : (s.setResultFlag x rf).rndIndex = s.rndIndex := rfl

/-! `emit` -/

@[simp] theorem emit_mem (e : Event) : (s.emit e).mem = s.mem := rfl
@[simp] theorem emit_v (e : Event) : (s.emit e).v = s.v := rfl
@[simp] theorem emit_i (e : Event) : (s.emit e).i = s.i := rfl
@[simp] theorem emit_pc (e : Event) : (s.emit e).pc = s.pc := rfl
@[simp] theorem emit_dt (e : Event) : (s.emit e).dt = s.dt := rfl
@[simp] theorem emit_st (e : Event) : (s.emit e).st = s.st := rfl
@[simp] theorem emit_stack (e : Event) : (s.emit e).stack = s.stack := rfl
@[simp] theorem emit_sp (e : Event) : (s.emit e).sp = s.sp := rfl
@[simp] theorem emit_status (e : Event) : (s.emit e).status = s.status := rfl
@[simp] theorem emit_cfg (e : Event) : (s.emit e).cfg = s.cfg := rfl
@[simp] theorem emit_events (e : Event) : (s.emit e).events = s.events ++ [e] := rfl
@[simp] theorem emit_rnd (e : Event) : (s.emit e).rnd = s.rnd := rfl
@[simp] theorem emit_rndIndex (e : Event) : (s.emit e).rndIndex = s.rndIndex := rfl

/-! `advance` -/

@[simp] theorem advance_mem : (s.advance).mem = s.mem := rfl
@[simp] theorem advance_v : (s.advance).v = s.v := rfl
@[simp] theorem advance_i : (s.advance).i = s.i := rfl
@[simp] theorem advance_pc : (s.advance).pc = s.pc + 2 := rfl
@[simp] theorem advance_dt : (s.advance).dt = s.dt := rfl
@[simp] theorem advance_st : (s.advance).st = s.st := rfl
@[simp] theorem advance_stack : (s.advance).stack = s.stack := rfl
@[simp] theorem advance_sp : (s.advance).sp = s.sp := rfl
@[simp] theorem advance_status : (s.advance).status = s.status := rfl
@[simp] theorem advance_cfg : (s.advance).cfg = s.cfg := rfl
@[simp] theorem advance_events : (s.advance).events = s.events := rfl
@[simp] theorem advance_rnd : (s.advance).rnd = s.rnd := rfl
@[simp] theorem advance_rndIndex : (s.advance).rndIndex = s.rndIndex := rfl

/-! `rewind` -/

@[simp] theorem rewind_mem : (s.rewind).mem = s.mem := rfl
@[simp] theorem rewind_v : (s.rewind).v = s.v := rfl
@[simp] theorem rewind_i : (s.rewind).i = s.i := rfl
@[simp] theorem rewind_pc : (s.rewind).pc = s.pc - 2 := rfl
@[simp] theorem rewind_dt : (s.rewind).dt = s.dt := rfl
@[simp] theorem rewind_st : (s.rewind).st = s.st := rfl
@[simp] theorem rewind_stack : (s.rewind).stack = s.stack := rfl
@[simp] theorem rewind_sp : (s.rewind).sp = s.sp := rfl
@[simp] theorem rewind_status : (s.rewind).status = s.status := rfl
@[simp] theorem rewind_cfg : (s.rewind).cfg = s.cfg := rfl
@[simp] theorem rewind_events : (s.rewind).events = s.events := rfl
@[simp] theorem rewind_rnd : (s.rewind).rnd = s.rnd := rfl
@[simp] theorem rewind_rndIndex : (s.rewind).rndIndex = s.rndIndex := rfl

/-! `raise` -/

@[simp] theorem raise_mem (f : Fault) : (s.raise f).mem = s.mem := rfl
@[simp] theorem raise_v (f : Fault) : (s.raise f).v = s.v := rfl
@[simp] theorem raise_i (f : Fault) : (s.raise f).i = s.i := rfl
@[simp] theorem raise_pc (f : Fault) : (s.raise f).pc = s.pc := rfl
@[simp] theorem raise_dt (f : Fault) : (s.raise f).dt = s.dt := rfl
@[simp] theorem raise_st (f : Fault) : (s.raise f).st = s.st := rfl
@[simp] theorem raise_stack (f : Fault) : (s.raise f).stack = s.stack := rfl
@[simp] theorem raise_sp (f : Fault) : (s.raise f).sp = s.sp := rfl
@[simp] theorem raise_status (f : Fault) : (s.raise f).status = .halted f := rfl
@[simp] theorem raise_cfg (f : Fault) : (s.raise f).cfg = s.cfg := rfl
@[simp] theorem raise_events (f : Fault) : (s.raise f).events = [] := rfl
@[simp] theorem raise_rnd (f : Fault) : (s.raise f).rnd = s.rnd := rfl
@[simp] theorem raise_rndIndex (f : Fault) : (s.raise f).rndIndex = s.rndIndex := rfl

/-! `beginTick` -/

@[simp] theorem beginTick_mem (b : Byte) : (s.beginTick b).mem = s.mem := rfl
@[simp] theorem beginTick_v (b : Byte) : (s.beginTick b).v = s.v := rfl
@[simp] theorem beginTick_i (b : Byte) : (s.beginTick b).i = s.i := rfl
@[simp] theorem beginTick_pc (b : Byte) : (s.beginTick b).pc = s.pc := rfl
@[simp] theorem beginTick_dt (b : Byte) : (s.beginTick b).dt = s.dt := rfl
@[simp] theorem beginTick_st (b : Byte) : (s.beginTick b).st = s.st := rfl
@[simp] theorem beginTick_stack (b : Byte) : (s.beginTick b).stack = s.stack := rfl
@[simp] theorem beginTick_sp (b : Byte) : (s.beginTick b).sp = s.sp := rfl
@[simp] theorem beginTick_status (b : Byte) : (s.beginTick b).status = s.status := rfl
@[simp] theorem beginTick_cfg (b : Byte) : (s.beginTick b).cfg = s.cfg := rfl
@[simp] theorem beginTick_events (b : Byte) : (s.beginTick b).events = [] := rfl
@[simp] theorem beginTick_rnd (b : Byte) : (s.beginTick b).rnd = b := rfl
@[simp] theorem beginTick_rndIndex (b : Byte) : (s.beginTick b).rndIndex = s.rndIndex := rfl

/-! `timerUpdate` -/

@[simp] theorem timerUpdate_mem : (s.timerUpdate).mem = s.mem := rfl
@[simp] theorem timerUpdate_v : (s.timerUpdate).v = s.v := rfl
@[simp] theorem timerUpdate_i : (s.timerUpdate).i = s.i := rfl
@[simp] theorem timerUpdate_pc : (s.timerUpdate).pc = s.pc := rfl
@[simp] theorem timerUpdate_dt : (s.timerUpdate).dt = countDown s.dt := rfl
@[simp] theorem timerUpdate_st : (s.timerUpdate).st = countDown s.st := rfl
@[simp] theorem timerUpdate_stack : (s.timerUpdate).stack = s.stack := rfl
@[simp] theorem timerUpdate_sp : (s.timerUpdate).sp = s.sp := rfl
@[simp] theorem timerUpdate_status : (s.timerUpdate).status = s.status := rfl
@[simp] theorem timerUpdate_cfg : (s.timerUpdate).cfg = s.cfg := rfl
@[simp] theorem timerUpdate_events : (s.timerUpdate).events = s.events := rfl
@[simp] theorem timerUpdate_rnd : (s.timerUpdate).rnd = s.rnd := rfl
@[simp] theorem timerUpdate_rndIndex : (s.timerUpdate).rndIndex = s.rndIndex := rfl

/-! `loadBlock` -/

@[simp] theorem loadBlock_mem (x : RegIx) : (s.loadBlock x).mem = s.mem := rfl
@[simp] theorem loadBlock_v (x : RegIx) : (s.loadBlock x).v =
      loadInto (fun k => s.peek (s.i.toNat + k)) (x.val + 1) s.v := rfl
@[simp] theorem loadBlock_i (x : RegIx) : (s.loadBlock x).i = s.i := rfl
@[simp] theorem loadBlock_pc (x : RegIx) : (s.loadBlock x).pc = s.pc := rfl
@[simp] theorem loadBlock_dt (x : RegIx) : (s.loadBlock x).dt = s.dt := rfl
@[simp] theorem loadBlock_st (x : RegIx) : (s.loadBlock x).st = s.st := rfl
@[simp] theorem loadBlock_stack (x : RegIx) : (s.loadBlock x).stack = s.stack := rfl
@[simp] theorem loadBlock_sp (x : RegIx) : (s.loadBlock x).sp = s.sp := rfl
@[simp] theorem loadBlock_status (x : RegIx) : (s.loadBlock x).status = s.status := rfl
@[simp] theorem loadBlock_cfg (x : RegIx) : (s.loadBlock x).cfg = s.cfg := rfl
@[simp] theorem loadBlock_events (x : RegIx) : (s.loadBlock x).events = s.events := rfl
@[simp] theorem loadBlock_rnd (x : RegIx) : (s.loadBlock x).rnd = s.rnd := rfl
@[simp] theorem loadBlock_rndIndex (x : RegIx) : (s.loadBlock x).rndIndex = s.rndIndex := rfl

/-! `skipIf` and `endTick` change what the condition lets them change. -/

@[simp] theorem skipIf_mem (c : Bool) : (s.skipIf c).mem = s.mem := by cases c <;> rfl
@[simp] theorem skipIf_v (c : Bool) : (s.skipIf c).v = s.v := by cases c <;> rfl
@[simp] theorem skipIf_i (c : Bool) : (s.skipIf c).i = s.i := by cases c <;> rfl
@[simp] theorem skipIf_pc (c : Bool) : (s.skipIf c).pc = if c then s.pc + 2 else s.pc := by
  cases c <;> rfl
@[simp] theorem skipIf_dt (c : Bool) : (s.skipIf c).dt = s.dt := by cases c <;> rfl
@[simp] theorem skipIf_st (c : Bool) : (s.skipIf c).st = s.st := by cases c <;> rfl
@[simp] theorem skipIf_stack (c : Bool) : (s.skipIf c).stack = s.stack := by cases c <;> rfl
@[simp] theorem skipIf_sp (c : Bool) : (s.skipIf c).sp = s.sp := by cases c <;> rfl
@[simp] theorem skipIf_status (c : Bool) : (s.skipIf c).status = s.status := by cases c <;> rfl
@[simp] theorem skipIf_cfg (c : Bool) : (s.skipIf c).cfg = s.cfg := by cases c <;> rfl
@[simp] theorem skipIf_events (c : Bool) : (s.skipIf c).events = s.events := by cases c <;> rfl
@[simp] theorem skipIf_rnd (c : Bool) : (s.skipIf c).rnd = s.rnd := by cases c <;> rfl
@[simp] theorem skipIf_rndIndex (c : Bool) : (s.skipIf c).rndIndex = s.rndIndex := by cases c <;> rfl

@[simp] theorem endTick_mem : s.endTick.mem = s.mem := by
  unfold endTick; split <;> rfl
@[simp] theorem endTick_v : s.endTick.v = s.v := by
  unfold endTick; split <;> rfl
@[simp] theorem endTick_i : s.endTick.i = s.i := by
  unfold endTick; split <;> rfl
@[simp] theorem endTick_pc : s.endTick.pc = s.pc := by
  unfold endTick; split <;> rfl
theorem endTick_dt :
    s.endTick.dt = if s.status = .running then countDown s.dt else s.dt := by
  unfold endTick; cases h : s.status <;> simp
theorem endTick_st :
    s.endTick.st = if s.status = .running then countDown s.st else s.st := by
  unfold endTick; cases h : s.status <;> simp
@[simp] theorem endTick_stack : s.endTick.stack = s.stack := by
  unfold endTick; split <;> rfl
@[simp] theorem endTick_sp : s.endTick.sp = s.sp := by
  unfold endTick; split <;> rfl
@[simp] theorem endTick_status : s.endTick.status = s.status := by
  unfold endTick; split <;> rfl
@[simp] theorem endTick_cfg : s.endTick.cfg = s.cfg := by
  unfold endTick; split <;> rfl
@[simp] theorem endTick_events : s.endTick.events = s.events := by
  unfold endTick; split <;> rfl
@[simp] theorem endTick_rnd : s.endTick.rnd = s.rnd := by
  unfold endTick; split <;> rfl
@[simp] theorem endTick_rndIndex : s.endTick.rndIndex = s.rndIndex := by
  unfold endTick; split <;> rfl

/-! `pokes` -/

@[simp] theorem pokes_mem (a : Nat) (bs : List Byte) : (s.pokes a bs).mem = Memory.writes s.cfg a bs s.mem := rfl
@[simp] theorem pokes_v (a : Nat) (bs : List Byte) : (s.pokes a bs).v = s.v := rfl
@[simp] theorem pokes_i (a : Nat) (bs : List Byte) : (s.pokes a bs).i = s.i := rfl
@[simp] theorem pokes_pc (a : Nat) (bs : List Byte) : (s.pokes a bs).pc = s.pc := rfl
@[simp] theorem pokes_dt (a : Nat) (bs : List Byte) : (s.pokes a bs).dt = s.dt := rfl
@[simp] theorem pokes_st (a : Nat) (bs : List Byte) : (s.pokes a bs).st = s.st := rfl
@[simp] theorem pokes_stack (a : Nat) (bs : List Byte) : (s.pokes a bs).stack = s.stack := rfl
@[simp] theorem pokes_sp (a : Nat) (bs : List Byte) : (s.pokes a bs).sp = s.sp := rfl
@[simp] theorem pokes_status (a : Nat) (bs : List Byte) : (s.pokes a bs).status = s.status := rfl
@[simp] theorem pokes_cfg (a : Nat) (bs : List Byte) : (s.pokes a bs).cfg = s.cfg := rfl
@[simp] theorem pokes_events (a : Nat) (bs : List Byte) : (s.pokes a bs).events = s.events := rfl
@[simp] theorem pokes_rnd (a : Nat) (bs : List Byte) : (s.pokes a bs).rnd = s.rnd := rfl
@[simp] theorem pokes_rndIndex (a : Nat) (bs : List Byte) : (s.pokes a bs).rndIndex = s.rndIndex := rfl

/-! Reads of registers after writes. -/

theorem getV_eq (x : RegIx) : s.getV x = s.v[x] := rfl

@[simp] theorem getV_setV (x y : RegIx) (b : Byte) :
    (s.setV x b).getV y = if y = x then b else s.getV y := by
  simp only [getV, setV, Fin.getElem_fin, Vector.getElem_set, Fin.ext_iff, eq_comm]

@[simp] theorem getV_setResultFlag (x y : RegIx) (rf : Byte × Byte) :
    (s.setResultFlag x rf).getV y = if y = vf then rf.2 else if y = x then rf.1 else s.getV y := by
  simp [setResultFlag]

theorem loadInto_getElem (byte : Nat → Byte) (n : Nat) (v : Vector Byte 16) (j : Nat) (hj : j < 16) :
    (loadInto byte n v)[j] = if j < n then byte j else v[j] := by
  induction n with
  | zero => simp [loadInto]
  | succ n ih =>
    simp only [loadInto, Vector.getElem_setIfInBounds, ih]
    by_cases h : n = j
    · subst h; simp
    · have : j < n + 1 ↔ j < n := by omega
      simp [h, this]

@[simp] theorem getV_loadBlock (x y : RegIx) :
    (s.loadBlock x).getV y = if y ≤ x then s.peek (s.i.toNat + y.val) else s.getV y := by
  have : y.val < x.val + 1 ↔ y ≤ x := by rw [Fin.le_def]; omega
  simp only [getV, loadBlock_v, Fin.getElem_fin, loadInto_getElem, this]

/-- A register is read from the register file alone. -/
theorem getV_congr (s t : State) (h : t.v = s.v) (x : RegIx) : t.getV x = s.getV x := by
  simp [getV, h]

/-- A byte of memory is read from memory and the font alone. -/
theorem peek_congr (s t : State) (hm : t.mem = s.mem) (hc : t.cfg = s.cfg) (a : Nat) :
    t.peek a = s.peek a := by
  simp [peek, hm, hc]

@[simp] theorem setV_peek (x : RegIx) (b : Byte) (k : Nat) : (s.setV x b).peek k = s.peek k := rfl
@[simp] theorem setI_peek (w : Word) (k : Nat) : (s.setI w).peek k = s.peek k := rfl
@[simp] theorem setPc_peek (w : Word) (k : Nat) : (s.setPc w).peek k = s.peek k := rfl
@[simp] theorem setDt_peek (b : Byte) (k : Nat) : (s.setDt b).peek k = s.peek k := rfl
@[simp] theorem setSt_peek (b : Byte) (k : Nat) : (s.setSt b).peek k = s.peek k := rfl
@[simp] theorem setResultFlag_peek (x : RegIx) (rf : Byte × Byte) (k : Nat) : (s.setResultFlag x rf).peek k = s.peek k := rfl
@[simp] theorem emit_peek (e : Event) (k : Nat) : (s.emit e).peek k = s.peek k := rfl
@[simp] theorem advance_peek (k : Nat) : (s.advance).peek k = s.peek k := rfl
@[simp] theorem rewind_peek (k : Nat) : (s.rewind).peek k = s.peek k := rfl
@[simp] theorem raise_peek (f : Fault) (k : Nat) : (s.raise f).peek k = s.peek k := rfl
@[simp] theorem beginTick_peek (b : Byte) (k : Nat) : (s.beginTick b).peek k = s.peek k := rfl
@[simp] theorem timerUpdate_peek (k : Nat) : (s.timerUpdate).peek k = s.peek k := rfl
@[simp] theorem loadBlock_peek (x : RegIx) (k : Nat) : (s.loadBlock x).peek k = s.peek k := rfl
@[simp] theorem skipIf_peek (c : Bool) (k : Nat) : (s.skipIf c).peek k = s.peek k := by
  cases c <;> rfl
@[simp] theorem endTick_peek (k : Nat) : s.endTick.peek k = s.peek k :=
  peek_congr _ _ (by simp) (by simp) k

end Sys2Proof.Machine.State
end

