-- ==== Sys2Proof/Laws/Memory.lean ====
section
/-! SUPPORT. The laws of memory: a read after a write, and that every write keeps the canonical form. -/

namespace Sys2Proof.Machine

@[simp] theorem keyPressed_eq : keyPressed = 255 := rfl
@[simp] theorem keyReleased_eq : keyReleased = 0 := rfl

/-- The bounds of rule R7 as numbers. -/
theorem config_bounds (c : Config) :
    (80 ≤ c.fbBase ∧ c.fbBase + 256 ≤ 512) ∧ (80 ≤ c.keyPressedAddr ∧ c.keyPressedAddr < 512) ∧
    (80 ≤ c.keyValueAddr ∧ c.keyValueAddr < 512) ∧ c.keyPressedAddr ≠ c.keyValueAddr ∧
    (c.keyPressedAddr < c.fbBase ∨ c.fbBase + 256 ≤ c.keyPressedAddr) ∧
    (c.keyValueAddr < c.fbBase ∨ c.fbBase + 256 ≤ c.keyValueAddr) := c.placed

namespace Memory

variable (c : Config)

theorem read_filter (m : List Host.Cell) (a b : Nat) :
    read c (m.filter (fun cell => cell.1 ≠ a)) b = if b = a then c.resetByte b else read c m b := by
  induction m with
  | nil => simp [read]
  | cons cell rest ih =>
    obtain ⟨k, x⟩ := cell
    by_cases hk : k = a
    · subst hk
      have : read c (List.filter (fun cell => decide (cell.1 ≠ k)) ((k, x) :: rest)) b =
          read c (rest.filter (fun cell => cell.1 ≠ k)) b := by simp
      rw [this, ih]
      by_cases hb : b = k <;> simp [read, hb]
    · have : List.filter (fun cell => decide (cell.1 ≠ a)) ((k, x) :: rest) =
          (k, x) :: rest.filter (fun cell => cell.1 ≠ a) := by simp [hk]
      rw [this]
      simp only [read, ih]
      by_cases hb : b = k
      · subst hb; simp [hk]
      · simp [hb]

theorem read_insert (m : List Host.Cell) (a : Nat) (v : Byte) (b : Nat)
    (absent : ∀ cell ∈ m, cell.1 ≠ a) :
    read c (insert a v m) b = if b = a then v else read c m b := by
  induction m with
  | nil => rfl
  | cons cell rest ih =>
    obtain ⟨k, x⟩ := cell
    have hk : k ≠ a := absent (k, x) (by simp)
    have ih := ih fun cell h => absent cell (by simp [h])
    by_cases hlt : a < k
    · simp [insert, hlt, read]
    · by_cases hb : b = k
      · subst hb; simp [insert, hlt, read, hk]
      · simp [insert, hlt, read, hb, ih]

/-- A read after a write gives the written byte at its address and the old byte elsewhere. -/
theorem read_write (m : List Host.Cell) (a : Nat) (v : Byte) (b : Nat) :
    read c (write c m a v) b = if b = a then v else read c m b := by
  unfold write
  split
  · rename_i hv
    rw [read_filter]
    by_cases hb : b = a <;> simp [hb, hv]
  · rw [read_insert c _ a v b (by simp), read_filter]
    by_cases hb : b = a <;> simp [hb]

/-- Reading after writing consecutive bytes: the written bytes where they were written, the old byte
everywhere else. -/
theorem read_writes (a : Nat) (bs : List Byte) (m : List Host.Cell) (k : Nat) :
    read c (writes c a bs m) k =
      if h : a ≤ k ∧ k < a + bs.length then bs[k - a]'(by omega) else read c m k := by
  induction bs generalizing a m with
  | nil =>
    have : ¬(a ≤ k ∧ k < a + ([] : List Byte).length) := by simp
    rw [dif_neg this]; rfl
  | cons b bs ih =>
    show read c (writes c (a + 1) bs (write c m a b)) k = _
    rw [ih, read_write]
    by_cases hk : k = a
    · subst hk
      have h1 : ¬(k + 1 ≤ k ∧ k < k + 1 + bs.length) := by omega
      have h2 : k ≤ k ∧ k < k + (b :: bs).length := by simp
      rw [dif_neg h1, dif_pos h2]
      simp
    · by_cases hin : a + 1 ≤ k ∧ k < a + 1 + bs.length
      · have h2 : a ≤ k ∧ k < a + (b :: bs).length := by simp only [List.length_cons]; omega
        rw [dif_pos hin, dif_pos h2]
        have : k - a = (k - (a + 1)) + 1 := by omega
        simp [this]
      · have h2 : ¬(a ≤ k ∧ k < a + (b :: bs).length) := by
          simp only [List.length_cons]; omega
        rw [dif_neg hin, dif_neg h2]
        simp [hk]

theorem mem_insert (m : List Host.Cell) (a : Nat) (v : Byte) (cell : Host.Cell) :
    cell ∈ insert a v m ↔ cell = (a, v) ∨ cell ∈ m := by
  induction m with
  | nil => simp [insert]
  | cons head rest ih =>
    obtain ⟨k, x⟩ := head
    unfold insert
    split
    · simp
    · simp [ih, or_left_comm]

theorem insert_rising (m : List Host.Cell) (a : Nat) (v : Byte)
    (absent : ∀ cell ∈ m, cell.1 ≠ a) (h : m.Pairwise (fun p q => p.1 < q.1)) :
    (insert a v m).Pairwise (fun p q => p.1 < q.1) := by
  induction m with
  | nil => simp [insert]
  | cons head rest ih =>
    obtain ⟨k, x⟩ := head
    have hk : k ≠ a := absent (k, x) (by simp)
    rw [List.pairwise_cons] at h
    unfold insert
    split
    · rename_i hlt
      refine List.pairwise_cons.2 ⟨fun q hq => ?_, List.pairwise_cons.2 h⟩
      rcases List.mem_cons.1 hq with rfl | hq
      · exact hlt
      · exact hlt.trans (h.1 q hq)
    · refine List.pairwise_cons.2 ⟨fun q hq => ?_, ih (fun q hq => absent q (by simp [hq])) h.2⟩
      rcases (mem_insert _ _ _ _).1 hq with rfl | hq
      · show k < a
        omega
      · exact h.1 q hq

/-- A write inside the address space keeps the canonical form. -/
theorem write_wf (m : List Host.Cell) (a : Nat) (v : Byte) (ha : a < 4096) (h : wf c m) :
    wf c (write c m a v) := by
  have hf : wf c (m.filter (fun cell => cell.1 ≠ a)) :=
    ⟨h.1.filter _, fun cell hc => h.2 cell (List.mem_of_mem_filter hc)⟩
  unfold write
  split
  · exact hf
  · rename_i hv
    refine ⟨insert_rising _ a v (by simp) hf.1, fun cell hc => ?_⟩
    rcases (mem_insert _ _ _ _).1 hc with rfl | hc
    · exact ⟨ha, hv⟩
    · exact hf.2 cell hc

/-- Writing bytes inside the address space keeps the canonical form. -/
theorem writes_wf (a : Nat) (bs : List Byte) (m : List Host.Cell) (ha : a + bs.length ≤ 4096)
    (h : wf c m) : wf c (writes c a bs m) := by
  induction bs generalizing a m with
  | nil => exact h
  | cons b bs ih =>
    have hl : a + (bs.length + 1) ≤ 4096 := ha
    exact ih (a + 1) _ (by omega) (write_wf c m a b (by omega) h)

/-- Nothing listed is a canonical memory: the reset memory. -/
theorem nil_wf : wf c [] := by simp [wf]

/-- Two canonical memories that read the same everywhere are the same data. -/
theorem eq_of_read_eq (m m' : List Host.Cell) (h : wf c m) (h' : wf c m')
    (hr : ∀ a, read c m a = read c m' a) : m = m' := by
  have low (m : List Host.Cell) (a : Nat) (hm : ∀ cell ∈ m, a < cell.1) :
      read c m a = c.resetByte a := by
    induction m with
    | nil => rfl
    | cons cell rest ih =>
      have := hm cell (by simp)
      simp only [read]
      rw [if_neg (by omega)]
      exact ih fun q hq => hm q (by simp [hq])
  induction m generalizing m' with
  | nil =>
    cases m' with
    | nil => rfl
    | cons cell rest =>
      have := hr cell.1
      simp only [read, if_true] at this
      exact absurd this.symm (h'.2 cell (by simp)).2
  | cons p rest ih =>
    cases m' with
    | nil =>
      have := hr p.1
      simp only [read, if_true] at this
      exact absurd this (h.2 p (by simp)).2
    | cons q rest' =>
      have hp := (List.pairwise_cons.1 h.1)
      have hq := (List.pairwise_cons.1 h'.1)
      have key : p.1 = q.1 := by
        rcases Nat.lt_trichotomy p.1 q.1 with hlt | heq | hgt
        · have e := hr p.1
          rw [low (q :: rest') p.1 (fun z hz => by
            rcases List.mem_cons.1 hz with rfl | hz
            · exact hlt
            · exact hlt.trans (hq.1 z hz))] at e
          simp only [read, if_true] at e
          exact absurd e (h.2 p (by simp)).2
        · exact heq
        · have e := hr q.1
          rw [low (p :: rest) q.1 (fun z hz => by
            rcases List.mem_cons.1 hz with rfl | hz
            · exact hgt
            · exact hgt.trans (hp.1 z hz))] at e
          simp only [read, if_true] at e
          exact absurd e.symm (h'.2 q (by simp)).2
      have val : p.2 = q.2 := by
        have e := hr p.1
        simpa [read, key] using e
      have tails : rest = rest' := by
        refine ih rest' ⟨hp.2, fun z hz => h.2 z (by simp [hz])⟩
          ⟨hq.2, fun z hz => h'.2 z (by simp [hz])⟩ fun a => ?_
        by_cases ha : a = p.1
        · rw [ha, low rest p.1 hp.1, low rest' p.1 (fun z hz => key ▸ hq.1 z hz)]
        · have e := hr a
          simpa [read, ha, ← key] using e
      rw [tails, Prod.ext key val]

end Memory

namespace State

variable (s : State)

@[simp] theorem peek_poke (a : Nat) (b : Byte) (k : Nat) :
    (s.poke a b).peek k = if k = a then b else s.peek k :=
  Memory.read_write s.cfg s.mem a b k

/-- Reading after writing consecutive bytes: the written bytes where they were written, the old byte
everywhere else. -/
theorem peek_pokes (a : Nat) (bs : List Byte) (s : State) (k : Nat) :
    (s.pokes a bs).peek k =
      if h : a ≤ k ∧ k < a + bs.length then bs[k - a]'(by omega) else s.peek k :=
  Memory.read_writes s.cfg a bs s.mem k

/-- Bytes outside the written ones read as before. -/
theorem peek_pokes_outside (a : Nat) (bs : List Byte) (s : State) (k : Nat)
    (h : k < a ∨ a + bs.length ≤ k) : (s.pokes a bs).peek k = s.peek k := by
  rw [peek_pokes, dif_neg (by omega)]

/-- Writing one byte inside the address space keeps memory canonical. -/
theorem poke_wf (a : Nat) (b : Byte) (ha : a < 4096) (h : Memory.wf s.cfg s.mem) :
    Memory.wf (s.poke a b).cfg (s.poke a b).mem :=
  Memory.write_wf s.cfg s.mem a b ha h

/-- Writing bytes inside the address space keeps memory canonical. -/
theorem pokes_wf (a : Nat) (bs : List Byte) (s : State) (ha : a + bs.length ≤ 4096)
    (h : Memory.wf s.cfg s.mem) : Memory.wf (s.pokes a bs).cfg (s.pokes a bs).mem :=
  Memory.writes_wf s.cfg a bs s.mem ha h

/-- Reset memory is canonical. -/
theorem resetWith_wf (c : Config) : Memory.wf (resetWith c).cfg (resetWith c).mem := Memory.nil_wf c

end State

end Sys2Proof.Machine
end

