-- ==== Sys2Proof/Laws/Ops.lean ====
section
/-! SUPPORT. What each shared operation can do, said once. -/

namespace Sys2Proof.Machine

/-! ## The access check -/

/-- No address is out of range exactly when there is none or the last is at most 0xFFF. -/
theorem firstOutOfRange_none (base n : Nat) :
    firstOutOfRange base n = none ↔ n = 0 ∨ base + n ≤ 4096 := by
  unfold firstOutOfRange
  split <;> simp_all

/-- Otherwise the check gives the lowest address above 0xFFF. -/
theorem firstOutOfRange_some (base n addr : Nat) :
    firstOutOfRange base n = some addr ↔
      (n ≠ 0 ∧ 4096 < base + n) ∧ addr = max base 4096 := by
  unfold firstOutOfRange
  split
  · simp; omega
  · simp only [Option.some.injEq]; omega

/-- An access inside memory is made. -/
theorem accessing_inRange {base n : Nat} (act : State → State) (s : State)
    (h : n = 0 ∨ base + n ≤ 4096) : accessing base n act s = act s := by
  simp only [accessing, (firstOutOfRange_none base n).2 h]

/-- An access past 0xFFF raises AddressOutOfRange and does nothing else. -/
theorem accessing_outOfRange {base n : Nat} (act : State → State) (s : State)
    (hn : n ≠ 0) (h : 4096 < base + n) :
    accessing base n act s = s.raise (.addressOutOfRange s.instrAddr (max base 4096)) := by
  simp only [accessing, (firstOutOfRange_some base n _).2 ⟨⟨hn, h⟩, rfl⟩]

/-- Everything a checked access can do. -/
theorem accessing_cases (base n : Nat) (act : State → State) (s : State) :
    ((n = 0 ∨ base + n ≤ 4096) ∧ accessing base n act s = act s) ∨
    ((n ≠ 0 ∧ 4096 < base + n) ∧
      accessing base n act s = s.raise (.addressOutOfRange s.instrAddr (max base 4096))) := by
  by_cases h : n = 0 ∨ base + n ≤ 4096
  · exact .inl ⟨h, accessing_inRange act s h⟩
  · have h' : n ≠ 0 ∧ 4096 < base + n := by omega
    exact .inr ⟨h', accessing_outOfRange act s h'.1 h'.2⟩

namespace State

variable (s : State)

/-! ## The call stack -/

/-- Below the depth limit a CALL pushes pc and jumps. -/
theorem pushCall_below (target : Addr) (h : s.sp.val < 12) :
    s.pushCall target =
      { s with
        stack := s.stack.set s.sp.val s.pc (h.trans (by decide))
        sp := ⟨s.sp.val + 1, Nat.succ_lt_succ h⟩
        pc := zext16 target } := by
  unfold pushCall
  exact dif_pos h

/-- At the depth limit a CALL raises StackOverflow. -/
theorem pushCall_full (target : Addr) (h : s.sp.val = 12) :
    s.pushCall target = s.raise (.stackOverflow s.instrAddr target) := by
  unfold pushCall
  exact dif_neg (by show ¬s.sp.val < 12; omega)

/-- On an empty stack a RET raises StackUnderflow. -/
theorem popReturn_empty (h : s.sp.val = 0) :
    s.popReturn = s.raise (.stackUnderflow s.instrAddr) := by
  unfold popReturn
  exact if_pos h

/-- With an entry on the stack a RET pops it into pc. -/
theorem popReturn_entry (h : s.sp.val ≠ 0) :
    s.popReturn =
      { s with
        sp := ⟨s.sp.val - 1, (Nat.sub_le _ _).trans_lt s.sp.isLt⟩
        pc := s.stack[s.sp.val - 1]'((Nat.sub_le _ _).trans_lt (s.sp.isLt.trans (by decide))) } := by
  unfold popReturn
  exact if_neg h

/-- The depth is at most 12, and so every live slot exists. -/
theorem sp_le : s.sp.val ≤ 12 := Nat.lt_succ_iff.1 s.sp.isLt

/-- A live slot exists. -/
theorem sp_lt_slots : s.sp.val < 16 := s.sp_le.trans_lt (by decide)

@[simp] theorem liveStack_length : s.liveStack.length = s.sp.val := by
  have h : s.sp.val ≤ 16 := s.sp_lt_slots.le
  simp only [liveStack, List.length_take, Vector.length_toList]
  exact Nat.min_eq_left h

/-- The live entries are the slots below the depth. -/
theorem liveStack_getElem (k : Nat) (h : k < s.liveStack.length) :
    s.liveStack[k] = s.stack[k]'((liveStack_length s ▸ h).trans s.sp_lt_slots) := by
  simp [liveStack]

/-- A CALL below the depth limit adds the advanced pc to the live stack. -/
theorem pushCall_liveStack (target : Addr) (h : s.sp.val < 12) :
    (s.pushCall target).liveStack = s.liveStack ++ [s.pc] := by
  have hsp : (s.pushCall target).sp.val = s.sp.val + 1 := by rw [pushCall_below s target h]
  refine List.ext_getElem (by simp [hsp]) fun k h1 h2 => ?_
  rw [liveStack_length, hsp] at h1
  have hslot : (s.pushCall target).stack[k]'(by omega) =
      if s.sp.val = k then s.pc else s.stack[k]'(by omega) := by
    simp only [pushCall_below s target h]
    exact Vector.getElem_set _ _
  rw [liveStack_getElem, hslot]
  by_cases hk : s.sp.val = k
  · subst hk
    rw [if_pos rfl, List.getElem_append_right (by simp)]
    simp
  · rw [if_neg hk, List.getElem_append_left (by rw [liveStack_length]; omega), liveStack_getElem]

/-- A RET takes the last live entry. -/
theorem popReturn_of_liveStack (l : List Word) (w : Word) (h : s.liveStack = l ++ [w]) :
    s.popReturn.pc = w ∧ s.popReturn.liveStack = l ∧ s.popReturn.sp.val = l.length := by
  have hlen : s.sp.val = l.length + 1 := by
    have := congrArg List.length h
    simpa using this
  have htop : s.stack[s.sp.val - 1]'(by have := s.sp_lt_slots; omega) = w := by
    rw [← liveStack_getElem s (s.sp.val - 1) (by rw [liveStack_length]; omega)]
    simp [h, hlen]
  rw [popReturn_entry s (by omega)]
  refine ⟨htop, ?_, by simp [hlen]⟩
  have hpre : (s.stack.toList.take s.sp.val).take l.length = l := by
    show s.liveStack.take l.length = l
    rw [h, List.take_left]
  rw [List.take_take, Nat.min_eq_left (by omega)] at hpre
  show s.stack.toList.take (s.sp.val - 1) = l
  rw [hlen, Nat.add_sub_cancel, hpre]

/-! ## Registers as a block -/

@[simp] theorem block_length (x : RegIx) : (s.block x).length = x.val + 1 := by
  simp [block]

theorem block_getElem (x : RegIx) (k : Nat) (h : k < (s.block x).length) :
    (s.block x)[k] = s.getV ⟨k, by rw [block_length] at h; omega⟩ := by
  simp [block, getV]

/-! ## Fetch and timers -/

/-- Inside memory the fetch reads the big-endian word at pc. -/
theorem fetch_inRange (h : s.pc.toNat + 1 ≤ 0xFFF) :
    s.fetch = .ok (wordOfBytes (s.peek s.pc.toNat) (s.peek (s.pc.toNat + 1))) := by
  simp only [fetch, (firstOutOfRange_none s.pc.toNat 2).2 (by omega)]

/-- Past the end the fetch gives the lowest failing address. -/
theorem fetch_outOfRange (h : 0xFFF < s.pc.toNat + 1) :
    s.fetch = .error (max s.pc.toNat 4096) := by
  simp only [fetch, (firstOutOfRange_some s.pc.toNat 2 _).2 ⟨by omega, rfl⟩]

/-- A timer counts down to zero and stays there. -/
@[simp] theorem countDown_toNat (t : Byte) : (countDown t).toNat = t.toNat - 1 := by
  unfold countDown
  split
  · rename_i h; simp [h]
  · rename_i h
    have h0 : t.toNat ≠ 0 := fun e => h (BitVec.eq_of_toNat_eq e)
    have : t.toNat < 256 := t.isLt
    rw [BitVec.toNat_sub]
    show (2 ^ 8 - 1 + t.toNat) % 2 ^ 8 = _
    omega

end State

end Sys2Proof.Machine
end

