-- ==== Sys2Proof/Laws/Display.lean ====
section
/-! SUPPORT. What the blitter can do: one destination byte, one row, all rows. -/

namespace Sys2Proof.Machine

variable (X Y : Byte) (base : Nat)

/-- XOR differs from OR exactly when the operands have a set bit in common. -/
theorem collides_iff_and (old v : Byte) : collides old v = true ↔ old &&& v ≠ 0 := by
  have key : (old ^^^ v = old ||| v) ↔ old &&& v = 0 := by
    constructor <;> intro h
    · refine BitVec.eq_of_getLsbD_eq fun i hi => ?_
      have := congrArg (fun z => z.getLsbD i) h
      simp only [BitVec.getLsbD_xor, BitVec.getLsbD_or] at this
      simp only [BitVec.getLsbD_and, BitVec.ofNat_eq_ofNat, BitVec.getLsbD_zero]
      revert this
      cases old.getLsbD i <;> cases v.getLsbD i <;> simp
    · refine BitVec.eq_of_getLsbD_eq fun i hi => ?_
      have := congrArg (fun z => z.getLsbD i) h
      simp only [BitVec.getLsbD_and, BitVec.ofNat_eq_ofNat, BitVec.getLsbD_zero] at this
      simp only [BitVec.getLsbD_xor, BitVec.getLsbD_or]
      revert this
      cases old.getLsbD i <;> cases v.getLsbD i <;> simp
  simp [collides, key]

@[simp] theorem clearScreen_length : clearScreen.length = 256 := List.length_replicate

@[simp] theorem clearScreen_getElem (k : Nat) (h : k < clearScreen.length) : clearScreen[k] = 0 :=
  List.getElem_replicate _

/-! ## Destination offsets -/

theorem blitOff0_lt (r : Nat) : blitOff0 X Y r < 256 := by unfold blitOff0; omega

theorem blitOff1_lt (r : Nat) : blitOff1 X Y r < 256 := by unfold blitOff1; omega

theorem blitOff0_row (r : Nat) : blitOff0 X Y r / 8 = (Y.toNat + r) % 32 := by
  unfold blitOff0; omega

theorem blitOff1_row (r : Nat) : blitOff1 X Y r / 8 = (Y.toNat + r) % 32 := by
  unfold blitOff1; omega

theorem blitOff0_ne_off1 (r : Nat) : blitOff0 X Y r ≠ blitOff1 X Y r := by
  unfold blitOff0 blitOff1; omega

/-- What sprite row `row`, the r-th, is XORed into framebuffer byte `k` (R201, R202). -/
def rowMask (r : Nat) (row : Byte) (k : Nat) : Byte :=
  if k = blitOff0 X Y r then row >>> (X.toNat % 8)
  else if X.toNat % 8 ≠ 0 ∧ k = blitOff1 X Y r then row <<< (8 - X.toNat % 8)
  else 0

/-- A row touches only the bytes of its own screen row. -/
theorem rowMask_other (r : Nat) (row : Byte) (k : Nat) (h : k / 8 ≠ (Y.toNat + r) % 32) :
    rowMask X Y r row k = 0 := by
  have h0 : k ≠ blitOff0 X Y r := fun e => h (e ▸ blitOff0_row X Y r)
  have h1 : k ≠ blitOff1 X Y r := fun e => h (e ▸ blitOff1_row X Y r)
  simp [rowMask, h0, h1]

/-! ## One destination byte -/

/-- The parts of the state a blit keeps, and a memory address it does not write. -/
structure BlitKeeps (b b' : Blit) : Prop where
  v : b'.s.v = b.s.v
  i : b'.s.i = b.s.i
  pc : b'.s.pc = b.s.pc
  dt : b'.s.dt = b.s.dt
  st : b'.s.st = b.s.st
  stack : b'.s.stack = b.s.stack
  sp : b'.s.sp = b.s.sp
  status : b'.s.status = b.s.status
  cfg : b'.s.cfg = b.s.cfg
  rnd : b'.s.rnd = b.s.rnd
  rndIndex : b'.s.rndIndex = b.s.rndIndex
  outside : ∀ a, a < b.s.cfg.fbBase ∨ b.s.cfg.fbBase + 256 ≤ a → b'.s.peek a = b.s.peek a
  wf : Memory.wf b.s.cfg b.s.mem → Memory.wf b'.s.cfg b'.s.mem

theorem BlitKeeps.refl (b : Blit) : BlitKeeps b b := by
  constructor <;> intros <;> first | rfl | assumption

theorem BlitKeeps.trans {b b' b'' : Blit} (h : BlitKeeps b b') (h' : BlitKeeps b' b'') :
    BlitKeeps b b'' where
  v := h'.v.trans h.v
  i := h'.i.trans h.i
  pc := h'.pc.trans h.pc
  dt := h'.dt.trans h.dt
  st := h'.st.trans h.st
  stack := h'.stack.trans h.stack
  sp := h'.sp.trans h.sp
  status := h'.status.trans h.status
  cfg := h'.cfg.trans h.cfg
  rnd := h'.rnd.trans h.rnd
  rndIndex := h'.rndIndex.trans h.rndIndex
  outside a ha := (h'.outside a (by rw [h.cfg]; exact ha)).trans (h.outside a ha)
  wf hw := h'.wf (h.wf hw)

theorem xorByte_keeps (k : Nat) (v : Byte) (b : Blit) (hk : k < 256) :
    BlitKeeps b (xorByte k v b) := by
  have hb := config_bounds b.s.cfg
  constructor <;> try rfl
  · intro a ha
    simp only [xorByte, State.emit_peek, State.peek_poke]
    rw [if_neg (by omega)]
  · intro hw
    exact State.poke_wf b.s _ _ (by omega) hw

/-- The framebuffer after one XorByte. -/
theorem xorByte_peek (k : Nat) (v : Byte) (b : Blit) (j : Nat) :
    (xorByte k v b).s.peek (b.s.cfg.fbBase + j) =
      b.s.peek (b.s.cfg.fbBase + j) ^^^ (if j = k then v else 0) := by
  simp only [xorByte, State.emit_peek, State.peek_poke, Nat.add_left_cancel_iff]
  by_cases h : j = k <;> simp [h]

@[simp] theorem xorByte_collided (k : Nat) (v : Byte) (b : Blit) :
    (xorByte k v b).collided = (b.collided || collides (b.s.peek (b.s.cfg.fbBase + k)) v) := rfl

/-- The event of one XorByte: the offset and the byte's new value. -/
theorem xorByte_events (k : Nat) (v : Byte) (b : Blit) :
    (xorByte k v b).s.events =
      b.s.events ++ [.byteUpdated k (b.s.peek (b.s.cfg.fbBase + k) ^^^ v)] := rfl

/-! ## One row -/

theorem blitRow_keeps (r : Nat) (b : Blit) : BlitKeeps b (blitRow X Y base r b) := by
  unfold blitRow
  dsimp only
  split
  · exact xorByte_keeps _ _ b (blitOff0_lt X Y r)
  · exact (xorByte_keeps _ _ b (blitOff0_lt X Y r)).trans
      (xorByte_keeps _ _ _ (blitOff1_lt X Y r))

/-- The framebuffer after one row. -/
theorem blitRow_peek (r : Nat) (b : Blit) (j : Nat) :
    (blitRow X Y base r b).s.peek (b.s.cfg.fbBase + j) =
      b.s.peek (b.s.cfg.fbBase + j) ^^^ rowMask X Y r (b.s.peek (base + r)) j := by
  have hne := blitOff0_ne_off1 X Y r
  unfold blitRow rowMask
  dsimp only
  split
  · rename_i h
    rw [xorByte_peek]
    simp [h]
  · rename_i h
    have hc : (xorByte (blitOff0 X Y r) (b.s.peek (base + r) >>> (X.toNat % 8)) b).s.cfg = b.s.cfg :=
      rfl
    rw [← hc, xorByte_peek, hc, xorByte_peek]
    by_cases h0 : j = blitOff0 X Y r
    · simp [h0, hne]
    · by_cases h1 : j = blitOff1 X Y r
      · simp [h, h1, hne.symm]
      · simp [h0, h1]

/-- A row collides exactly when a bit it sets is lit in the framebuffer before it. -/
theorem blitRow_collided (r : Nat) (b : Blit) :
    (blitRow X Y base r b).collided = true ↔
      b.collided = true ∨ ∃ j < 256, b.s.peek (b.s.cfg.fbBase + j) &&&
        rowMask X Y r (b.s.peek (base + r)) j ≠ 0 := by
  have hne := blitOff0_ne_off1 X Y r
  have m0 : rowMask X Y r (b.s.peek (base + r)) (blitOff0 X Y r) =
      b.s.peek (base + r) >>> (X.toNat % 8) := by simp [rowMask]
  by_cases hs : X.toNat % 8 = 0
  · have hrow : blitRow X Y base r b =
        xorByte (blitOff0 X Y r) (b.s.peek (base + r) >>> (X.toNat % 8)) b := by
      simp [blitRow, hs]
    rw [hrow, xorByte_collided, Bool.or_eq_true, collides_iff_and, ← m0]
    constructor
    · rintro (h | h)
      · exact .inl h
      · exact .inr ⟨_, blitOff0_lt X Y r, h⟩
    · rintro (h | ⟨j, hj, h⟩)
      · exact .inl h
      · right
        by_cases h0 : j = blitOff0 X Y r
        · exact h0 ▸ h
        · simp [rowMask, h0, hs] at h
  · have m1 : rowMask X Y r (b.s.peek (base + r)) (blitOff1 X Y r) =
        b.s.peek (base + r) <<< (8 - X.toNat % 8) := by simp [rowMask, hs, hne.symm]
    have hrow : blitRow X Y base r b =
        xorByte (blitOff1 X Y r) (b.s.peek (base + r) <<< (8 - X.toNat % 8))
          (xorByte (blitOff0 X Y r) (b.s.peek (base + r) >>> (X.toNat % 8)) b) := by
      simp [blitRow, hs]
    have hold : (xorByte (blitOff0 X Y r) (b.s.peek (base + r) >>> (X.toNat % 8)) b).s.peek
        (b.s.cfg.fbBase + blitOff1 X Y r) = b.s.peek (b.s.cfg.fbBase + blitOff1 X Y r) := by
      rw [xorByte_peek]; simp [hne.symm]
    have hc : (xorByte (blitOff0 X Y r) (b.s.peek (base + r) >>> (X.toNat % 8)) b).s.cfg = b.s.cfg :=
      rfl
    rw [hrow, xorByte_collided, hc, hold, xorByte_collided, Bool.or_eq_true, Bool.or_eq_true,
      collides_iff_and, collides_iff_and, ← m0, ← m1]
    constructor
    · rintro ((h | h) | h)
      · exact .inl h
      · exact .inr ⟨_, blitOff0_lt X Y r, h⟩
      · exact .inr ⟨_, blitOff1_lt X Y r, h⟩
    · rintro (h | ⟨j, hj, h⟩)
      · exact .inl (.inl h)
      · by_cases h0 : j = blitOff0 X Y r
        · exact .inl (.inr (h0 ▸ h))
        · by_cases h1 : j = blitOff1 X Y r
          · exact .inr (h1 ▸ h)
          · simp [rowMask, h0, h1] at h

/-! ## All rows -/

theorem blitRows_keeps (r n : Nat) (b : Blit) : BlitKeeps b (blitRows X Y base r n b) := by
  induction n generalizing r b with
  | zero => exact .refl b
  | succ n ih => exact (blitRow_keeps X Y base r b).trans (ih (r + 1) _)

/-- The last of `n + 1` rows is drawn on what the rows before it left. -/
theorem blitRows_last (r n : Nat) (b : Blit) :
    blitRows X Y base r (n + 1) b = blitRow X Y base (r + n) (blitRows X Y base r n b) := by
  induction n generalizing r b with
  | zero => rfl
  | succ n ih =>
    have e : r + 1 + n = r + (n + 1) := by omega
    show blitRows X Y base (r + 1) (n + 1) (blitRow X Y base r b) = _
    rw [ih, e]
    rfl

/-- Rows below the first `r` of a screen row are not touched again: a byte of another screen row keeps
its value. -/
theorem blitRows_peek_other (r n : Nat) (b : Blit) (j : Nat)
    (h : ∀ q, r ≤ q → q < r + n → j / 8 ≠ (Y.toNat + q) % 32) :
    (blitRows X Y base r n b).s.peek (b.s.cfg.fbBase + j) = b.s.peek (b.s.cfg.fbBase + j) := by
  induction n generalizing r b with
  | zero => rfl
  | succ n ih =>
    have hc := (blitRow_keeps X Y base r b).cfg
    show (blitRows X Y base (r + 1) n (blitRow X Y base r b)).s.peek _ = _
    rw [← hc, ih (r + 1) _ (fun q h1 h2 => h q (by omega) (by omega)), hc, blitRow_peek,
      rowMask_other X Y r _ j (h r (by omega) (by omega))]
    simp

/-- The framebuffer after all rows, for a sprite whose bytes the blit does not change. -/
theorem blitRows_peek (r n : Nat) (b : Blit) (j : Nat) (hn : n ≤ 32)
    (apart : ∀ q, r ≤ q → q < r + n →
      base + q < b.s.cfg.fbBase ∨ b.s.cfg.fbBase + 256 ≤ base + q) :
    (blitRows X Y base r n b).s.peek (b.s.cfg.fbBase + j) =
      b.s.peek (b.s.cfg.fbBase + j) ^^^
        (if (j / 8 + 32 - (Y.toNat + r) % 32) % 32 < n ∧ j < 256 then
          rowMask X Y (r + (j / 8 + 32 - (Y.toNat + r) % 32) % 32)
            (b.s.peek (base + (r + (j / 8 + 32 - (Y.toNat + r) % 32) % 32))) j
        else 0) := by
  induction n generalizing r b with
  | zero => simp [blitRows]
  | succ n ih =>
    have keeps := blitRow_keeps X Y base r b
    show (blitRows X Y base (r + 1) n (blitRow X Y base r b)).s.peek _ = _
    by_cases hj : j < 256
    · by_cases hrow : j / 8 = (Y.toNat + r) % 32
      · have hd : (j / 8 + 32 - (Y.toNat + r) % 32) % 32 = 0 := by omega
        have := blitRows_peek_other X Y base (r + 1) n (blitRow X Y base r b) j
          (fun q h1 h2 => by omega)
        rw [keeps.cfg] at this
        rw [this, blitRow_peek, hd]
        simp [hj]
      · have hmask := rowMask_other X Y r (b.s.peek (base + r)) j hrow
        have := ih (r + 1) (blitRow X Y base r b) (by omega)
          (fun q h1 h2 => by rw [keeps.cfg]; exact apart q (by omega) (by omega))
        rw [keeps.cfg] at this
        rw [this, blitRow_peek, hmask]
        have hd : (j / 8 + 32 - (Y.toNat + (r + 1)) % 32) % 32 + 1 =
            (j / 8 + 32 - (Y.toNat + r) % 32) % 32 := by omega
        by_cases hlt : (j / 8 + 32 - (Y.toNat + (r + 1)) % 32) % 32 < n
        · have hlt' : (j / 8 + 32 - (Y.toNat + r) % 32) % 32 < n + 1 := by omega
          have hq : r + 1 + (j / 8 + 32 - (Y.toNat + (r + 1)) % 32) % 32 =
              r + (j / 8 + 32 - (Y.toNat + r) % 32) % 32 := by omega
          have hs := keeps.outside (base + (r + (j / 8 + 32 - (Y.toNat + r) % 32) % 32))
            (apart _ (by omega) (by omega))
          rw [hq, hs]
          simp [hlt, hlt', hj]
        · have hlt' : ¬(j / 8 + 32 - (Y.toNat + r) % 32) % 32 < n + 1 := by omega
          simp [hlt, hlt']
    · have := blitRows_peek_other X Y base (r + 1) n (blitRow X Y base r b) j
        (fun q h1 h2 => by omega)
      rw [keeps.cfg] at this
      rw [this, blitRow_peek, rowMask_other X Y r _ j (by omega)]
      simp [hj]

/-- All rows collide exactly when some framebuffer byte loses a lit bit: every byte belongs to at most
one row, so what a row meets is what the byte held before the blit. -/
theorem blitRows_collided (r n : Nat) (b : Blit) (hn : n ≤ 32) :
    (blitRows X Y base r n b).collided = true ↔
      b.collided = true ∨ ∃ j < 256, b.s.peek (b.s.cfg.fbBase + j) &&&
        ~~~(blitRows X Y base r n b).s.peek (b.s.cfg.fbBase + j) ≠ 0 := by
  have lost (u m : Byte) : u &&& ~~~(u ^^^ m) = u &&& m := by
    refine BitVec.eq_of_getLsbD_eq fun i hi => ?_
    simp only [BitVec.getLsbD_and, BitVec.getLsbD_not, BitVec.getLsbD_xor, hi, decide_true,
      Bool.true_and]
    cases u.getLsbD i <;> cases m.getLsbD i <;> rfl
  induction n generalizing r b with
  | zero =>
    have : ∀ u : Byte, u &&& ~~~u = 0 := fun u => by simp
    simp [blitRows, this]
  | succ n ih =>
    have keeps := blitRow_keeps X Y base r b
    have ih := ih (r + 1) (blitRow X Y base r b) (by omega)
    rw [keeps.cfg] at ih
    show (blitRows X Y base (r + 1) n (blitRow X Y base r b)).collided = true ↔ _
    refine ih.trans ?_
    rw [blitRow_collided, or_assoc]
    refine or_congr Iff.rfl ?_
    show _ ↔ ∃ j < 256, b.s.peek (b.s.cfg.fbBase + j) &&&
      ~~~(blitRows X Y base (r + 1) n (blitRow X Y base r b)).s.peek (b.s.cfg.fbBase + j) ≠ 0
    have same (j : Nat) (h : j / 8 ≠ (Y.toNat + r) % 32) :
        (blitRow X Y base r b).s.peek (b.s.cfg.fbBase + j) = b.s.peek (b.s.cfg.fbBase + j) := by
      rw [blitRow_peek, rowMask_other X Y r _ j h]; simp
    have fixed (j : Nat) (h : j / 8 = (Y.toNat + r) % 32) :
        (blitRows X Y base (r + 1) n (blitRow X Y base r b)).s.peek (b.s.cfg.fbBase + j) =
          b.s.peek (b.s.cfg.fbBase + j) ^^^ rowMask X Y r (b.s.peek (base + r)) j := by
      have := blitRows_peek_other X Y base (r + 1) n (blitRow X Y base r b) j
        (fun q h1 h2 => by omega)
      rw [keeps.cfg] at this
      rw [this, blitRow_peek]
    constructor
    · rintro (⟨j, hj, h⟩ | ⟨j, hj, h⟩)
      · refine ⟨j, hj, ?_⟩
        by_cases hrow : j / 8 = (Y.toNat + r) % 32
        · rw [fixed j hrow, lost]; exact h
        · rw [rowMask_other X Y r _ j hrow] at h
          simp at h
      · refine ⟨j, hj, ?_⟩
        by_cases hrow : j / 8 = (Y.toNat + r) % 32
        · have e : (blitRows X Y base (r + 1) n (blitRow X Y base r b)).s.peek
              (b.s.cfg.fbBase + j) = (blitRow X Y base r b).s.peek (b.s.cfg.fbBase + j) := by
            rw [fixed j hrow, blitRow_peek]
          rw [e] at h
          have : ∀ u : Byte, u &&& ~~~u = 0 := fun u => by simp
          exact absurd (this _) h
        · rw [same j hrow] at h; exact h
    · rintro ⟨j, hj, h⟩
      by_cases hrow : j / 8 = (Y.toNat + r) % 32
      · rw [fixed j hrow, lost] at h
        exact .inl ⟨j, hj, h⟩
      · exact .inr ⟨j, hj, by rw [same j hrow]; exact h⟩

end Sys2Proof.Machine
end

