-- ==== Sys2Proof/Laws/Frame.lean ====
section
/-! SUPPORT. Frames compose, and the inversion lemmas of the instructions whose meaning is long. -/

namespace Sys2Proof.Machine

theorem Part.same_refl (p : Part) (s : State) : p.same s s := by
  cases p <;> simp [Part.same]

theorem Part.same_trans (p : Part) {s t u : State} (h : p.same s t) (h' : p.same t u) :
    p.same s u := by
  cases p <;> simp only [Part.same] at *
  case stack => exact ⟨h'.1.trans h.1, fun k => (h'.2 k).trans (h.2 k)⟩
  all_goals first | exact h'.trans h | exact fun k => (h' k).trans (h k)

theorem Frame.refl (parts : List Part) (s : State) : Frame parts s s :=
  ⟨fun p _ => p.same_refl s, rfl, rfl, rfl⟩

theorem Frame.trans {parts : List Part} {s t u : State} (h : Frame parts s t)
    (h' : Frame parts t u) : Frame parts s u :=
  ⟨fun p hp => p.same_trans (h.1 p hp) (h'.1 p hp), h'.2.1.trans h.2.1, h'.2.2.1.trans h.2.2.1,
    h'.2.2.2.trans h.2.2.2⟩

theorem Frame.mono {parts parts' : List Part} {s t : State} (h : Frame parts s t)
    (sub : ∀ p, p ∈ parts → p ∈ parts') : Frame parts' s t :=
  ⟨fun p hp => h.1 p fun h => hp (sub p h), h.2⟩

/-- What raising a fault leaves: status and events change, nothing else does. -/
theorem raise_frame (f : Fault) (s : State) : Frame [.status, .events] s (s.raise f) := by
  refine ⟨fun p hp => ?_, rfl, rfl, rfl⟩
  cases p <;> simp [Part.same, State.getV] at hp ⊢

/-- The next state of CLS. Cite it where `cases` on the equation would compute the 256 writes. -/
theorem execCls_next {s t : State} (h : execCls s = .next t) :
    t = (s.pokes s.cfg.fbBase clearScreen).emit .screenCleared :=
  (Host.Outcome.next.inj h).symm

/-- DRW with its sprite inside memory. -/
theorem execDrw_inRange (x y : RegIx) (n : Nibble) (s : State)
    (h : n.toNat = 0 ∨ s.i.toNat + n.toNat ≤ 4096) :
    execDrw x y n s = .next (drawAndFlag (s.getV x) (s.getV y) s.i.toNat n.toNat s) :=
  congrArg Host.Outcome.next (accessing_inRange _ _ h)

/-- DRW with a sprite byte past 0xFFF. -/
theorem execDrw_outOfRange (x y : RegIx) (n : Nibble) (s : State) (hn : n.toNat ≠ 0)
    (h : 4096 < s.i.toNat + n.toNat) :
    execDrw x y n s =
      .next (s.raise (.addressOutOfRange s.instrAddr (max s.i.toNat 4096))) :=
  congrArg Host.Outcome.next (accessing_outOfRange _ _ hn h)

/-- A blit changes memory inside the framebuffer, VF and the events, and nothing else. -/
theorem drawAndFlag_frame (X Y : Byte) (base h : Nat) (s : State) :
    Frame [.mem, .v, .events] s (drawAndFlag X Y base h s) := by
  have k := blitRows_keeps X Y base 0 h ⟨s, false⟩
  refine ⟨fun p hp => ?_, k.cfg, k.rnd, k.rndIndex⟩
  cases p <;> simp [Part.same] at hp ⊢
  · exact k.i
  · exact k.pc
  · exact k.dt
  · exact k.st
  · exact ⟨k.sp, fun i => congrArg (fun v : Vector Word 16 => v[i.val]) k.stack⟩
  · exact k.status

/-- The bit of a row's mask under a pixel is the sprite's bit that far right of its left edge
(R31, R201). -/
theorem rowMask_pixel (X Y : Byte) (r : Nat) (row : Byte) (px py : Nat) (hpx : px < 64)
    (hr : (Y.toNat + r) % 32 = py) :
    (rowMask X Y r row (8 * py + px / 8)).getLsbD (7 - px % 8) =
      (decide ((px + 256 - X.toNat) % 64 < 8) && row.getLsbD (7 - (px + 256 - X.toNat) % 64)) := by
  have hX := X.isLt
  unfold rowMask blitOff0 blitOff1
  rw [hr]
  by_cases c0 : px / 8 = X.toNat / 8 % 8
  · rw [if_pos (by omega), BitVec.getLsbD_ushiftRight]
    by_cases hlt : X.toNat % 8 ≤ px % 8
    · have e : (px + 256 - X.toNat) % 64 = px % 8 - X.toNat % 8 := by omega
      have e' : X.toNat % 8 + (7 - px % 8) = 7 - (px % 8 - X.toNat % 8) := by omega
      rw [e, e']
      simp
      omega
    · have : ¬(px + 256 - X.toNat) % 64 < 8 := by omega
      simp only [this, decide_false, Bool.false_and]
      exact BitVec.getLsbD_of_ge _ _ (by omega)
  · rw [if_neg (by omega)]
    by_cases c1 : X.toNat % 8 ≠ 0 ∧ px / 8 = (X.toNat / 8 % 8 + 1) % 8
    · rw [if_pos (by omega), BitVec.getLsbD_shiftLeft]
      by_cases hlt : px % 8 < X.toNat % 8
      · have e : (px + 256 - X.toNat) % 64 = px % 8 + 8 - X.toNat % 8 := by omega
        have e' : 7 - px % 8 - (8 - X.toNat % 8) = 7 - (px % 8 + 8 - X.toNat % 8) := by omega
        have g1 : 7 - px % 8 < 8 := by omega
        have g2 : ¬7 - px % 8 < 8 - X.toNat % 8 := by omega
        have g3 : px % 8 + 8 - X.toNat % 8 < 8 := by omega
        rw [e, e']
        simp [g1, g2, g3]
      · have g : ¬(px + 256 - X.toNat) % 64 < 8 := by omega
        have g2 : 7 - px % 8 < 8 - X.toNat % 8 := by omega
        simp [g, g2]
    · rw [if_neg (by omega)]
      have g : ¬(px + 256 - X.toNat) % 64 < 8 := by omega
      simp [g]

/-- One row changes a pixel exactly where it is on the row's screen line, under the row's eight columns
and set in the row's byte (R31, R201, R202). -/
theorem blitRow_pixel (X Y : Byte) (base r : Nat) (b : Blit) (px py : Nat) (hpx : px < 64) :
    (blitRow X Y base r b).s.pixel px py =
      (b.s.pixel px py ^^ (decide ((Y.toNat + r) % 32 = py) &&
        decide ((px + 256 - X.toNat) % 64 < 8) &&
        (b.s.peek (base + r)).getLsbD (7 - (px + 256 - X.toNat) % 64))) := by
  unfold State.pixel
  rw [(blitRow_keeps X Y base r b).cfg, blitRow_peek, BitVec.getLsbD_xor]
  congr 1
  by_cases hr : (Y.toNat + r) % 32 = py
  · rw [rowMask_pixel X Y r _ px py hpx hr]
    simp [hr]
  · rw [rowMask_other X Y r _ _ (by omega)]
    simp [hr]

/-- Screens with the same pixels have the same framebuffer bytes. -/
theorem peek_of_pixels (s t : State) (hc : t.cfg = s.cfg)
    (h : ∀ px py, px < 64 → py < 32 → t.pixel px py = s.pixel px py) (k : Nat) (hk : k < 256) :
    t.peek (s.cfg.fbBase + k) = s.peek (s.cfg.fbBase + k) := by
  refine BitVec.eq_of_getLsbD_eq fun i hi => ?_
  have e := h (8 * (k % 8) + (7 - i)) (k / 8) (by omega) (by omega)
  have e1 : 8 * (k / 8) + (8 * (k % 8) + (7 - i)) / 8 = k := by omega
  have e2 : 7 - (8 * (k % 8) + (7 - i)) % 8 = i := by omega
  simpa only [State.pixel, hc, e1, e2] using e

end Sys2Proof.Machine
end

