-- ==== Sys2Proof/Laws/PerInstr.lean ====
section
/-! SUPPORT. Facts of the syntax, one lemma an instruction: it is well formed, its row is a row of the
opcode map, and its word matches that row (R71, R75, R79). -/

namespace Sys2Proof.Laws.WellFormedRow

/-- The instruction is well formed, its row is in the opcode map, and its word carries the row's fixed
bits (R71, R75). -/
def Statement (i : Instr) : Prop :=
  i.wellFormed = true ∧ i.row ∈ opcodeMap ∧ i.row.matchesWord (encode i) = true

/-- Every instruction is well formed: the field types are the ranges of R71. -/
theorem wellFormed_all (i : Instr) : i.wellFormed = true := by
  cases i
  case jp nnn | call nnn | ldI nnn | jpV0 nnn => simpa [Instr.wellFormed] using nnn.isLt
  case seImm x kk | sneImm x kk | ldImm x kk | addImm x kk | rnd x kk =>
    simp [Instr.wellFormed, kk.isLt]
  case drw x y n => simp [Instr.wellFormed, n.isLt]
  all_goals simp [Instr.wellFormed]

/-- Every instruction's row is a row of the opcode map. -/
theorem row_mem (i : Instr) : i.row ∈ opcodeMap := by
  cases i <;> simp [Instr.row, opcodeMap]

/-- A word matches a row when its masked bits are the row's, bit by bit. -/
theorem matches_of_bits (r : OpcodeRow) (w : Word)
    (h : ∀ k < 16, (w.getLsbD k && r.mask.getLsbD k) = r.bits.getLsbD k) :
    r.matchesWord w = true := by
  simp only [OpcodeRow.matchesWord, beq_iff_eq]
  exact BitVec.eq_of_getLsbD_eq fun k hk => (BitVec.getLsbD_and ..).trans (h k hk)

theorem mask_F000 (k : Nat) (hk : k < 16) : (0xF000 : Word).getLsbD k = !decide (k < 12) := by
  revert k; decide

theorem mask_F0FF (k : Nat) (hk : k < 16) :
    (0xF0FF : Word).getLsbD k = (decide (k < 8) || !decide (k < 12)) := by revert k; decide

theorem mask_F00F (k : Nat) (hk : k < 16) :
    (0xF00F : Word).getLsbD k = (decide (k < 4) || !decide (k < 12)) := by revert k; decide

/-- The nnn form. -/
theorem matches_nnn (a : Nibble) (nnn : Addr) :
    OpcodeRow.matchesWord ⟨encodeNnn a 0, 0xF000⟩ (encodeNnn a nnn) = true := by
  refine matches_of_bits _ _ fun k hk => ?_
  simp only [getLsbD_encodeNnn, mask_F000 k hk]
  by_cases k < 12 <;> simp [*]

/-- The kk form with kk an operand. -/
theorem matches_kk (a : Nibble) (x : RegIx) (kk : Byte) :
    OpcodeRow.matchesWord ⟨encodeKk a 0 0, 0xF000⟩ (encodeKk a x kk) = true := by
  refine matches_of_bits _ _ fun k hk => ?_
  simp only [getLsbD_encodeKk, mask_F000 k hk]
  by_cases k < 8 <;> by_cases k < 12 <;> simp [*]
  omega

/-- The kk form with a fixed low byte. -/
theorem matches_low (a : Nibble) (x : RegIx) (kk : Byte) :
    OpcodeRow.matchesWord ⟨encodeKk a 0 kk, 0xF0FF⟩ (encodeKk a x kk) = true := by
  refine matches_of_bits _ _ fun k hk => ?_
  simp only [getLsbD_encodeKk, mask_F0FF k hk]
  by_cases k < 8 <;> by_cases k < 12 <;> simp [*]

/-- The xyn form with a fixed last nibble. -/
theorem matches_xyn (a : Nibble) (x y : RegIx) (n : Nibble) :
    OpcodeRow.matchesWord ⟨encodeXyn a 0 0 n, 0xF00F⟩ (encodeXyn a x y n) = true := by
  refine matches_of_bits _ _ fun k hk => ?_
  simp only [getLsbD_encodeXyn, mask_F00F k hk]
  by_cases k < 4 <;> by_cases k < 8 <;> by_cases k < 12 <;> simp [*]
  omega

/-- The xyn form with n an operand. -/
theorem matches_draw (a : Nibble) (x y : RegIx) (n : Nibble) :
    OpcodeRow.matchesWord ⟨encodeXyn a 0 0 0, 0xF000⟩ (encodeXyn a x y n) = true := by
  refine matches_of_bits _ _ fun k hk => ?_
  simp only [getLsbD_encodeXyn, mask_F000 k hk]
  by_cases k < 4 <;> by_cases k < 8 <;> by_cases k < 12 <;> simp [*] <;> omega

theorem cls : Statement .cls :=
  ⟨wellFormed_all _, row_mem _, rfl⟩

theorem ret : Statement .ret :=
  ⟨wellFormed_all _, row_mem _, rfl⟩

theorem jp (nnn : Addr) : Statement (.jp nnn) :=
  ⟨wellFormed_all _, row_mem _, matches_nnn 0x1 nnn⟩

theorem call (nnn : Addr) : Statement (.call nnn) :=
  ⟨wellFormed_all _, row_mem _, matches_nnn 0x2 nnn⟩

theorem seImm (x : RegIx) (kk : Byte) : Statement (.seImm x kk) :=
  ⟨wellFormed_all _, row_mem _, matches_kk 0x3 x kk⟩

theorem sneImm (x : RegIx) (kk : Byte) : Statement (.sneImm x kk) :=
  ⟨wellFormed_all _, row_mem _, matches_kk 0x4 x kk⟩

theorem seReg (x y : RegIx) : Statement (.seReg x y) :=
  ⟨wellFormed_all _, row_mem _, matches_xyn 0x5 x y 0x0⟩

theorem ldImm (x : RegIx) (kk : Byte) : Statement (.ldImm x kk) :=
  ⟨wellFormed_all _, row_mem _, matches_kk 0x6 x kk⟩

theorem addImm (x : RegIx) (kk : Byte) : Statement (.addImm x kk) :=
  ⟨wellFormed_all _, row_mem _, matches_kk 0x7 x kk⟩

theorem ldReg (x y : RegIx) : Statement (.ldReg x y) :=
  ⟨wellFormed_all _, row_mem _, matches_xyn 0x8 x y 0x0⟩

theorem orReg (x y : RegIx) : Statement (.orReg x y) :=
  ⟨wellFormed_all _, row_mem _, matches_xyn 0x8 x y 0x1⟩

theorem andReg (x y : RegIx) : Statement (.andReg x y) :=
  ⟨wellFormed_all _, row_mem _, matches_xyn 0x8 x y 0x2⟩

theorem xorReg (x y : RegIx) : Statement (.xorReg x y) :=
  ⟨wellFormed_all _, row_mem _, matches_xyn 0x8 x y 0x3⟩

theorem addReg (x y : RegIx) : Statement (.addReg x y) :=
  ⟨wellFormed_all _, row_mem _, matches_xyn 0x8 x y 0x4⟩

theorem sub (x y : RegIx) : Statement (.sub x y) :=
  ⟨wellFormed_all _, row_mem _, matches_xyn 0x8 x y 0x5⟩

theorem shr (x y : RegIx) : Statement (.shr x y) :=
  ⟨wellFormed_all _, row_mem _, matches_xyn 0x8 x y 0x6⟩

theorem subn (x y : RegIx) : Statement (.subn x y) :=
  ⟨wellFormed_all _, row_mem _, matches_xyn 0x8 x y 0x7⟩

theorem shl (x y : RegIx) : Statement (.shl x y) :=
  ⟨wellFormed_all _, row_mem _, matches_xyn 0x8 x y 0xE⟩

theorem sneReg (x y : RegIx) : Statement (.sneReg x y) :=
  ⟨wellFormed_all _, row_mem _, matches_xyn 0x9 x y 0x0⟩

theorem ldI (nnn : Addr) : Statement (.ldI nnn) :=
  ⟨wellFormed_all _, row_mem _, matches_nnn 0xA nnn⟩

theorem jpV0 (nnn : Addr) : Statement (.jpV0 nnn) :=
  ⟨wellFormed_all _, row_mem _, matches_nnn 0xB nnn⟩

theorem rnd (x : RegIx) (kk : Byte) : Statement (.rnd x kk) :=
  ⟨wellFormed_all _, row_mem _, matches_kk 0xC x kk⟩

theorem drw (x y : RegIx) (n : Nibble) : Statement (.drw x y n) :=
  ⟨wellFormed_all _, row_mem _, matches_draw 0xD x y n⟩

theorem skp (x : RegIx) : Statement (.skp x) :=
  ⟨wellFormed_all _, row_mem _, matches_low 0xE x 0x9E⟩

theorem sknp (x : RegIx) : Statement (.sknp x) :=
  ⟨wellFormed_all _, row_mem _, matches_low 0xE x 0xA1⟩

theorem ldVxDt (x : RegIx) : Statement (.ldVxDt x) :=
  ⟨wellFormed_all _, row_mem _, matches_low 0xF x 0x07⟩

theorem ldVxK (x : RegIx) : Statement (.ldVxK x) :=
  ⟨wellFormed_all _, row_mem _, matches_low 0xF x 0x0A⟩

theorem ldDtVx (x : RegIx) : Statement (.ldDtVx x) :=
  ⟨wellFormed_all _, row_mem _, matches_low 0xF x 0x15⟩

theorem ldStVx (x : RegIx) : Statement (.ldStVx x) :=
  ⟨wellFormed_all _, row_mem _, matches_low 0xF x 0x18⟩

theorem addI (x : RegIx) : Statement (.addI x) :=
  ⟨wellFormed_all _, row_mem _, matches_low 0xF x 0x1E⟩

theorem ldF (x : RegIx) : Statement (.ldF x) :=
  ⟨wellFormed_all _, row_mem _, matches_low 0xF x 0x29⟩

theorem ldB (x : RegIx) : Statement (.ldB x) :=
  ⟨wellFormed_all _, row_mem _, matches_low 0xF x 0x33⟩

theorem storeRegs (x : RegIx) : Statement (.storeRegs x) :=
  ⟨wellFormed_all _, row_mem _, matches_low 0xF x 0x55⟩

theorem loadRegs (x : RegIx) : Statement (.loadRegs x) :=
  ⟨wellFormed_all _, row_mem _, matches_low 0xF x 0x65⟩

end Sys2Proof.Laws.WellFormedRow
end

