-- ==== Sys2Proof/Laws/Tick.lean ====
section
/-! SUPPORT. What a tick, a step and a run are, case by case. -/

namespace Sys2Proof.Machine

variable (b : Byte) (s : State)

/-- While Halted a tick is refused. -/
theorem tick_halted (f : Fault) (h : s.status = .halted f) : tick b s = .refused .tickWhileHalted := by
  simp only [tick, h]

/-- A Running tick whose fetch fails raises AddressOutOfRange at the pc it started from. -/
theorem tick_fetchFails (hr : s.status = .running) (hp : 0xFFF < s.pc.toNat + 1) :
    tick b s = .next ((s.beginTick b).raise (.addressOutOfRange s.pc (max s.pc.toNat 4096))) := by
  have hf : (s.beginTick b).fetch = .error (max s.pc.toNat 4096) :=
    State.fetch_outOfRange (s.beginTick b) hp
  simp only [tick, hr, runTick, hf]
  rfl

/-- A Running tick whose fetch succeeds runs the word at pc with pc advanced. -/
theorem tick_fetches (hr : s.status = .running) (hp : s.pc.toNat + 1 ≤ 0xFFF) :
    tick b s =
      runWord s.pc (wordOfBytes (s.peek s.pc.toNat) (s.peek (s.pc.toNat + 1)))
        (s.beginTick b).advance := by
  have hf : (s.beginTick b).fetch =
      .ok (wordOfBytes (s.peek s.pc.toNat) (s.peek (s.pc.toNat + 1))) :=
    State.fetch_inRange (s.beginTick b) hp
  simp only [tick, hr, runTick, hf]
  rfl

theorem runWord_ok (a w : Word) (ins : Instr) (h : decode w = .ok ins) :
    runWord a w s = afterExecute (exec ins s) := by
  simp only [runWord, h]

theorem runWord_error (a w : Word) (e : DecodeError) (h : decode w = .error e) :
    runWord a w s = .next (s.raise (.decodeError a w)) := by
  simp only [runWord, h]

/-- A step is a tick with the next free random byte. -/
theorem step_eq :
    step s = tick (Config.randomByte s.rndIndex) { s with rndIndex := s.rndIndex + 1 } := rfl

/-- A run of one more step. -/
theorem run_succ (k : Nat) (t : State) (h : step s = .next t) :
    Sys2Proof.core.run (k + 1) s = Sys2Proof.core.run k t := by
  have : Sys2Proof.core.step s = .next t := h
  simp only [Host.Core.run, this]

end Sys2Proof.Machine
end

