-- ==== Sys2Proof/Tests/Slice0.lean ====
section
/-! SUPPORT. Decoding of words written out from the spec, checks that refuse, one-step tests whose
expected results are the vectors of spec/95_test_vectors.md (named in each comment), and for every
obligation with hypotheses a concrete witness that meets them. -/

namespace Sys2Proof.Tests

open Sys2Proof Sys2Proof.Machine

/-! ## Decoding: words of 95_test_vectors.md section 2.1 and of the match column of R75 -/

/-- EN2, EN3. -/
theorem test_decode_clear_and_return :
    decode 0x00E0 = .ok .cls ∧
    decode 0x00EE = .ok .ret := by
  decide

/-- EN13, S2, R75 rows 3, 4, 21. -/
theorem test_decode_jumps :
    decode 0x1ABC = .ok (.jp 0xABC) ∧
    decode 0x1FFF = .ok (.jp 0xFFF) ∧
    decode 0x22FF = .ok (.call 0x2FF) ∧
    decode 0xBFFF = .ok (.jpV0 0xFFF) := by
  decide

/-- CF11, CF12, EN5, EN9, EN10. -/
theorem test_decode_skips :
    decode 0x3342 = .ok (.seImm 3 0x42) ∧
    decode 0x4342 = .ok (.sneImm 3 0x42) ∧
    decode 0x5120 = .ok (.seReg 1 2) ∧
    decode 0x9120 = .ok (.sneReg 1 2) ∧
    decode 0xE39E = .ok (.skp 3) ∧
    decode 0xE3A1 = .ok (.sknp 3) := by
  decide

/-- AL1, AL2, MA1, EN13, TR8. -/
theorem test_decode_loads_and_random :
    decode 0x612B = .ok (.ldImm 1 0x2B) ∧
    decode 0x7102 = .ok (.addImm 1 0x02) ∧
    decode 0xA2F0 = .ok (.ldI 0x2F0) ∧
    decode 0xC000 = .ok (.rnd 0 0x00) ∧
    decode 0xC30F = .ok (.rnd 3 0x0F) := by
  decide

/-- EN7, EN14. -/
theorem test_decode_alu :
    decode 0x8AB0 = .ok (.ldReg 10 11) ∧
    decode 0x8AB1 = .ok (.orReg 10 11) ∧
    decode 0x8AB2 = .ok (.andReg 10 11) ∧
    decode 0x8AB3 = .ok (.xorReg 10 11) ∧
    decode 0x8AB4 = .ok (.addReg 10 11) ∧
    decode 0x8AB5 = .ok (.sub 10 11) ∧
    decode 0x8AB6 = .ok (.shr 10 11) ∧
    decode 0x8AB7 = .ok (.subn 10 11) ∧
    decode 0x8ABE = .ok (.shl 10 11) ∧
    decode 0x81F6 = .ok (.shr 1 15) := by
  decide

/-- EN12. -/
theorem test_decode_draw :
    decode 0xD12F = .ok (.drw 1 2 15) := by
  decide

/-- EN11. -/
theorem test_decode_misc :
    decode 0xF307 = .ok (.ldVxDt 3) ∧
    decode 0xF30A = .ok (.ldVxK 3) ∧
    decode 0xF315 = .ok (.ldDtVx 3) ∧
    decode 0xF318 = .ok (.ldStVx 3) ∧
    decode 0xF31E = .ok (.addI 3) ∧
    decode 0xF329 = .ok (.ldF 3) ∧
    decode 0xF333 = .ok (.ldB 3) ∧
    decode 0xF355 = .ok (.storeRegs 3) ∧
    decode 0xF365 = .ok (.loadRegs 3) := by
  decide

/-- The illegal words of EN1, EN4, EN6, EN8, EN9. -/
theorem test_decode_refuses_families_0_5_8_9 :
    decode 0x0000 = .error (.unknownOpcode 0x0000) ∧
    decode 0x00E1 = .error (.unknownOpcode 0x00E1) ∧
    decode 0x00EF = .error (.unknownOpcode 0x00EF) ∧
    decode 0x0123 = .error (.unknownOpcode 0x0123) ∧
    decode 0x5121 = .error (.unknownOpcode 0x5121) ∧
    decode 0x512F = .error (.unknownOpcode 0x512F) ∧
    decode 0x8AB8 = .error (.unknownOpcode 0x8AB8) ∧
    decode 0x8ABD = .error (.unknownOpcode 0x8ABD) ∧
    decode 0x8ABF = .error (.unknownOpcode 0x8ABF) ∧
    decode 0x9121 = .error (.unknownOpcode 0x9121) := by
  decide

/-- The illegal words of EN10 and EN11. -/
theorem test_decode_refuses_families_E_F :
    decode 0xE39F = .error (.unknownOpcode 0xE39F) ∧
    decode 0xE3A0 = .error (.unknownOpcode 0xE3A0) ∧
    decode 0xF300 = .error (.unknownOpcode 0xF300) ∧
    decode 0xF330 = .error (.unknownOpcode 0xF330) ∧
    decode 0xF375 = .error (.unknownOpcode 0xF375) ∧
    decode 0xF385 = .error (.unknownOpcode 0xF385) := by
  decide

/-- S3 and EN12: the encoder rebuilds the word. -/
theorem test_encode : encode (.shr 1 2) = 0x8126 ∧ encode (.drw 1 2 15) = 0xD12F := by decide

/-- R52, R70: the first byte is the high one, and one byte is not an instruction. -/
theorem test_decode_bytes :
    decodeBytes [0x1A, 0xBC, 0x77] = .ok (.jp 0xABC, [0x77]) ∧
    decodeBytes [0x1A] = .error .truncated := by decide

/-- The host's numbering: bit 0 is the word's least significant bit (R8). -/
theorem test_decode_table_word :
    decodeTableWord 16 0x8126 = some (.shr 1 2) ∧ decodeTableWord 16 0x0000 = none := by decide

/-! ## Well-formedness: each check refuses an ill-formed term -/

/-- An illegal word (R77). -/
theorem test_wf_word : legalWord 0x8AB8 = false ∧ legalWord 0x8AB7 = true := by decide

/-- The framebuffer over the font, or past 0x1FF (R7). -/
theorem test_wf_framebuffer :
    ¬Config.Placement 0x04F 0x1F0 0x1F1 ∧ ¬Config.Placement 0x101 0x050 0x051 ∧
    Config.Placement 0x050 0x1F0 0x1F1 := by decide

/-- A key byte over the font or at 0x200 (R7). -/
theorem test_wf_keys :
    ¬Config.Placement 0x100 0x04F 0x051 ∧ ¬Config.Placement 0x100 0x050 0x04F ∧
    ¬Config.Placement 0x050 0x200 0x1F0 ∧ ¬Config.Placement 0x050 0x1F0 0x200 := by decide

/-- A key byte inside the framebuffer, or both at one address (R7). -/
theorem test_wf_keys_apart :
    ¬Config.Placement 0x100 0x1FF 0x051 ∧ ¬Config.Placement 0x100 0x050 0x100 ∧
    ¬Config.Placement 0x100 0x050 0x050 ∧ Config.Placement 0x100 0x050 0x051 := by decide

/-- A ROM of `n` zero bytes fits exactly when `n` is at most 3584 (R252). -/
theorem romFits_zeros (n : Nat) : romFits (List.replicate n 0x00) = decide (n ≤ 3584) := by
  simp [romFits]

/-- FR1, FR2: 3584 bytes fit, 3585 do not. -/
theorem test_wf_rom :
    romFits (List.replicate 3584 0x00) = true ∧ romFits (List.replicate 3585 0x00) = false :=
  ⟨(romFits_zeros 3584).trans (by decide), (romFits_zeros 3585).trans (by decide)⟩

/-- Every instruction is well formed: the field types are the ranges of R71. -/
theorem test_wf_instr : Instr.wellFormed (.drw 15 15 15) = true ∧ Instr.wellFormed (.jp 0xFFF) = true :=
  by decide

/-! ## One instruction on a small state -/

/-- Execute's view of an instruction at 0x200: pc is 0x202 (95_test_vectors.md section 2). -/
def base : State := { State.reset with pc := 0x202 }

/-- Registers set from a list. -/
def regs (l : List (RegIx × Byte)) (s : State) : State := l.foldl (fun s p => s.setV p.1 p.2) s

/-- A field of the next state, if there is one. -/
def field {α : Type} (f : State → α) : Result → Option α
  | .next t => some (f t)
  | _ => none

/-- A register and VF. -/
def rf (x : RegIx) (t : State) : Byte × Byte := (t.getV x, t.getV 15)

/-- The latch after pressKey(v) (95_test_vectors.md section 2.6). -/
def latch (v : Byte) (s : State) : State := (s.poke 0x050 0xFF).poke 0x051 v

/-- Framebuffer byte k. -/
def fb (k : Nat) (t : State) : Byte := t.peek (0x100 + k)

/-- CF1. -/
theorem test_jp :
    field State.pc (exec (.jp 0xABC) (base)) =
      some 0x0ABC := by decide

/-- CF3. -/
theorem test_jpV0 :
    field State.pc (exec (.jpV0 0xFFF) (regs [(0, 0xFF)] base)) =
      some 0x10FE := by decide

/-- S4: the first of the two calls, from pc = 0x200. -/
theorem test_call :
    field (fun t => (t.liveStack, t.pc)) (exec (.call 0x2FF) ({ base with pc := 0x200 })) =
      some ([0x200], 0x2FF) := by decide

/-- CF8. -/
theorem test_call_overflow :
    field State.status (exec (.call 0x400) ({ base with sp := 12 })) =
      some (.halted (.stackOverflow 0x200 0x400)) := by decide

/-- CF6. -/
theorem test_ret :
    field (fun t => (t.sp.val, t.pc)) (exec (.ret) ({ base with pc := 0x302, sp := 1, stack := base.stack.set 0 0x202 })) =
      some (0, 0x0202) := by decide

/-- CF7. -/
theorem test_ret_underflow :
    field State.status (exec (.ret) (base)) =
      some (.halted (.stackUnderflow 0x200)) := by decide

/-- CF11. -/
theorem test_seImm :
    field State.pc (exec (.seImm 3 0x42) (regs [(3, 0x42)] base)) =
      some 0x204 := by decide

/-- CF11. -/
theorem test_seImm_no :
    field State.pc (exec (.seImm 3 0x43) (regs [(3, 0x42)] base)) =
      some 0x202 := by decide

/-- CF12. -/
theorem test_sneImm :
    field State.pc (exec (.sneImm 3 0x43) (regs [(3, 0x42)] base)) =
      some 0x204 := by decide

/-- CF12. -/
theorem test_sneImm_no :
    field State.pc (exec (.sneImm 3 0x42) (regs [(3, 0x42)] base)) =
      some 0x202 := by decide

/-- CF13. -/
theorem test_seReg :
    field State.pc (exec (.seReg 1 2) (regs [(1, 7), (2, 7)] base)) =
      some 0x204 := by decide

/-- CF14. -/
theorem test_seReg_no :
    field State.pc (exec (.seReg 1 2) (regs [(1, 7), (2, 8)] base)) =
      some 0x202 := by decide

/-- CF14. -/
theorem test_sneReg :
    field State.pc (exec (.sneReg 1 2) (regs [(1, 7), (2, 8)] base)) =
      some 0x204 := by decide

/-- CF15. -/
theorem test_sneReg_no :
    field State.pc (exec (.sneReg 5 5) (base)) =
      some 0x202 := by decide

/-- AL1. -/
theorem test_ldImm :
    field (rf 1) (exec (.ldImm 1 0x2B) (base)) =
      some (0x2B, 0) := by decide

/-- AL2: the sum wraps and sets no flag. -/
theorem test_addImm :
    field (rf 1) (exec (.addImm 1 0x02) (regs [(1, 0xFF)] base)) =
      some (0x01, 0) := by decide

/-- AL3. -/
theorem test_addImm_vf :
    field (rf 15) (exec (.addImm 15 0x01) (regs [(15, 0x01)] base)) =
      some (0x02, 0x02) := by decide

/-- AL4. -/
theorem test_ldReg :
    field (rf 1) (exec (.ldReg 1 2) (regs [(2, 0x33)] base)) =
      some (0x33, 0) := by decide

/-- AL33: VF only as the destination. -/
theorem test_orReg :
    field (rf 15) (exec (.orReg 15 2) (regs [(15, 0x01), (2, 0x10)] base)) =
      some (0x11, 0x11) := by decide

/-- AL6. -/
theorem test_andReg :
    field (rf 1) (exec (.andReg 1 2) (regs [(1, 0x3C), (2, 0x0F)] base)) =
      some (0x0C, 0) := by decide

/-- AL7. -/
theorem test_xorReg :
    field (rf 1) (exec (.xorReg 1 2) (regs [(1, 0xFF), (2, 0x0F)] base)) =
      some (0xF0, 0) := by decide

/-- AL11. -/
theorem test_addReg :
    field (rf 1) (exec (.addReg 1 2) (regs [(1, 0xFF), (2, 0x01)] base)) =
      some (0x00, 1) := by decide

/-- AL15: VF as the second operand is read before it is written. -/
theorem test_addReg_vf :
    field (rf 1) (exec (.addReg 1 15) (regs [(1, 0x01), (15, 0xFF)] base)) =
      some (0x00, 1) := by decide

/-- AL17: equal operands clear VF (C2). -/
theorem test_sub_equal :
    field (rf 1) (exec (.sub 1 2) (regs [(1, 0x05), (2, 0x05), (15, 9)] base)) =
      some (0x00, 0) := by decide

/-- AL20: the flag overwrites the result. -/
theorem test_sub_vf :
    field (rf 15) (exec (.sub 15 2) (regs [(15, 0x10), (2, 0x01)] base)) =
      some (1, 1) := by decide

/-- AL24: V[y] does not matter. -/
theorem test_shr :
    field (rf 1) (exec (.shr 1 15) (regs [(1, 0x04), (15, 0x99)] base)) =
      some (0x02, 0) := by decide

/-- AL25. -/
theorem test_shr_vf :
    field (rf 15) (exec (.shr 15 0) (regs [(15, 0x03)] base)) =
      some (1, 1) := by decide

/-- AL26. -/
theorem test_subn :
    field (rf 1) (exec (.subn 1 2) (regs [(1, 0x01), (2, 0x10)] base)) =
      some (0x0F, 1) := by decide

/-- AL28. -/
theorem test_subn_borrow :
    field (rf 1) (exec (.subn 1 2) (regs [(1, 0x01)] base)) =
      some (0xFF, 0) := by decide

/-- AL29. -/
theorem test_shl :
    field (rf 1) (exec (.shl 1 2) (regs [(1, 0x81)] base)) =
      some (0x02, 1) := by decide

/-- AL32. -/
theorem test_shl_vf :
    field (rf 15) (exec (.shl 15 0) (regs [(15, 0x40)] base)) =
      some (0, 0) := by decide

/-- MA1. -/
theorem test_ldI :
    field State.i (exec (.ldI 0x2F0) (base)) =
      some 0x02F0 := by decide

/-- MA2: no flag. -/
theorem test_addI :
    field (fun t => (t.i, t.getV 15)) (exec (.addI 2) (regs [(2, 0x05), (15, 0x77)] { base with i := 0x0FFE })) =
      some (0x1003, 0x77) := by decide

/-- MA3. -/
theorem test_addI_wraps :
    field State.i (exec (.addI 2) (regs [(2, 0x01)] { base with i := 0xFFFF })) =
      some 0x0000 := by decide

/-- MA13. -/
theorem test_ldF :
    field State.i (exec (.ldF 3) (regs [(3, 0x1A)] base)) =
      some 0x0032 := by decide

/-- MA9, S5. -/
theorem test_ldB :
    field (fun t => [t.peek 0x300, t.peek 0x301, t.peek 0x302]) (exec (.ldB 5) (regs [(5, 0xEF)] { base with i := 0x300 })) =
      some [2, 3, 9] := by decide

/-- MA12. -/
theorem test_ldB_fault :
    field (fun t => (t.status, t.mem)) (exec (.ldB 5) ({ base with i := 0xFFE })) =
      some (.halted (.addressOutOfRange 0x200 0x1000), []) := by decide

/-- MA4. -/
theorem test_storeRegs :
    field (fun t => (t.mem, t.i)) (exec (.storeRegs 2) (regs [(0, 1), (1, 2), (2, 3), (3, 4)] { base with i := 0x300 })) =
      some ([(0x300, 1), (0x301, 2), (0x302, 3)], 0x300) := by decide

/-- MA7. -/
theorem test_storeRegs_fault :
    field State.status (exec (.storeRegs 15) ({ base with i := 0xFF1 })) =
      some (.halted (.addressOutOfRange 0x200 0x1000)) := by decide

/-- MA5. -/
theorem test_loadRegs :
    field (fun t => [t.getV 0, t.getV 1, t.getV 2, t.getV 3]) (exec (.loadRegs 2) ({ base with i := 0x300, mem := [(0x300, 1), (0x301, 2), (0x302, 3), (0x303, 4)] })) =
      some [1, 2, 3, 0] := by decide

/-- MA8. -/
theorem test_loadRegs_fault :
    field State.status (exec (.loadRegs 0) ({ base with i := 0x1003 })) =
      some (.halted (.addressOutOfRange 0x200 0x1003)) := by decide

/-- TR8. -/
theorem test_rnd :
    field (State.getV · 3) (exec (.rnd 3 0x0F) ({ base with rnd := 0xA7 })) =
      some 0x07 := by decide

/-- KB1. -/
theorem test_skp :
    field State.pc (exec (.skp 1) (latch 5 (regs [(1, 0x05)] base))) =
      some 0x204 := by decide

/-- KB7. -/
theorem test_skp_whole_byte :
    field State.pc (exec (.skp 1) (latch 5 (regs [(1, 0x15)] base))) =
      some 0x202 := by decide

/-- KB5. -/
theorem test_sknp :
    field State.pc (exec (.sknp 1) (latch 5 (regs [(1, 0x06)] base))) =
      some 0x204 := by decide

/-- KB4. -/
theorem test_sknp_no :
    field State.pc (exec (.sknp 1) (latch 5 (regs [(1, 0x05)] base))) =
      some 0x202 := by decide

/-- KB9. -/
theorem test_ldVxK :
    field (fun t => (t.getV 3, t.pc, t.peek 0x050)) (exec (.ldVxK 3) (latch 0xB base)) =
      some (0x0B, 0x202, 0xFF) := by decide

/-- KB11: only 0xFF means pressed. -/
theorem test_ldVxK_waits :
    field State.pc (exec (.ldVxK 3) (base.poke 0x050 0x01)) =
      some 0x200 := by decide

/-- TR6 before its timer update. -/
theorem test_ldVxDt :
    field (fun t => (t.getV 5, t.endTick.dt)) (exec (.ldVxDt 5) ({ base with dt := 0x10 })) =
      some (0x10, 0x0F) := by decide

/-- TR3, with the tick's timer update. -/
theorem test_ldDtVx :
    field (fun t => (t.dt, t.endTick.dt)) (exec (.ldDtVx 2) (regs [(2, 0x3C)] base)) =
      some (0x3C, 0x3B) := by decide

/-- TR5, with the tick's timer update. -/
theorem test_ldStVx :
    field (fun t => (t.st, t.endTick.st)) (exec (.ldStVx 2) (regs [(2, 0x01)] base)) =
      some (0x01, 0) := by decide

/-- DS15. -/
theorem test_cls :
    field (fun t => (t.mem, t.events)) (exec (.cls) ((base.poke 0x105 0x3C).poke 0x051 0x07)) =
      some ([(0x051, 0x07)], [.screenCleared]) := by decide +kernel

/-- DS4: the columns past 63 reappear on the same row. -/
theorem test_drw_wraps :
    field (fun t => (fb 7 t, fb 0 t, t.getV 15)) (exec (.drw 0 1 1) (regs [(0, 60)] { base with i := 0x300, mem := [(0x300, 0xFF)] })) =
      some (0x0F, 0xF0, 0) := by decide

/-- DS6, the events by R205. -/
theorem test_drw_collides :
    field (fun t => (fb 0 t, t.getV 15, t.events)) (exec (.drw 0 1 1) ({ base with i := 0x300, mem := [(0x100, 0x0F), (0x300, 0x18)] })) =
      some (0x17, 1, [.byteUpdated 0 0x17]) := by decide

/-! ## Ticks, faults and host moves -/

/-- CF20: an odd pc is legal and the fetch is big-endian. -/
theorem test_tick_odd_pc :
    field State.pc (tick 0 { State.reset with pc := 0x201, mem := [(0x201, 0x12), (0x202, 0x34)] }) =
      some 0x0234 := by decide

/-- CF19: the fetch fault comes before the advance. -/
theorem test_tick_fetch_fault :
    field (fun t => (t.status, t.pc)) (tick 0 { State.reset with pc := 0xFFF }) =
      some (.halted (.addressOutOfRange 0xFFF 0x1000), 0xFFF) := by decide

/-- TR7 and FR3: an illegal word halts with pc advanced and no timer update. -/
theorem test_tick_illegal :
    field (fun t => (t.status, t.pc, t.dt)) (tick 0 { State.reset with dt := 5 }) =
      some (.halted (.decodeError 0x200 0x0000), 0x202, 5) := by decide

/-- KB8: the wait's tick still counts the timer. -/
theorem test_tick_waits :
    field (fun t => (t.pc, t.dt)) (tick 0 (State.placeWord 0xF30A { State.reset with dt := 2 })) =
      some (0x200, 1) := by decide

/-- FR5: a tick while Halted is refused. -/
theorem test_tick_halted :
    tick 0 { State.reset with status := .halted (.stackUnderflow 0x200) } =
      .refused .tickWhileHalted := by rfl

/-- R186, R187, D14: release leaves the value byte. -/
theorem test_keys :
    field State.mem (pressKey 0x0B base) = some [(0x050, 0xFF), (0x051, 0x0B)] ∧
    field State.mem (releaseKey (latch 0x0B base)) = some [(0x051, 0x0B)] := by decide

/-- FR6: reset leaves Halted; the ROM stands from 0x200. -/
theorem test_reset :
    field (fun t => (t.status, t.mem))
      (hostReset [0x12, 0x00] { State.reset with status := .halted (.stackUnderflow 0x200) }) =
      some (.running, [(0x200, 0x12)]) := by decide

/-- The word placed for the host is the one the step fetches and runs: JP 0xABC. -/
theorem test_with_fetch_word :
    field State.pc (step (State.reset.withFetchWord 16 0x1ABC)) = some 0x0ABC := by rfl

/-- Where pc is past the end of memory the word is placed at 0x200. -/
theorem test_with_fetch_word_past_the_end :
    field State.pc (step ({ State.reset with pc := 0xFFF }.withFetchWord 16 0x1ABC)) =
      some 0x0ABC := by rfl

/-! ## Witnesses: for each obligation with hypotheses, a concrete input that meets them, at the
boundary of each clause -/

/-- `base` with I set. -/
def atI (w : Word) : State := { base with i := w }

/-- A Running state with a word at pc = 0xFFE, the last place a fetch reads. -/
def lastWord (w : Word) : State := State.placeWord w { State.reset with pc := 0xFFE }

theorem witness_EncodeOfDecode : decode 0x81F6 = .ok (.shr 1 15) := by decide

theorem witness_IllegalWords : legalWord 0x8AB8 = false ∧ legalWord 0x8ABE = true := by decide

theorem witness_OpcodeRows :
    (⟨0x8006, 0xF00F⟩ : OpcodeRow) ∈ opcodeMap ∧
    OpcodeRow.matchesWord ⟨0x8006, 0xF00F⟩ 0x8126 = true := by decide

/-- The flag laws' result clause, below the flag register. -/
theorem witness_AddAndSubtract_Shifts : (14 : RegIx) ≠ 15 := by decide

theorem witness_Call :
    ({ base with sp := 11 } : State).sp.val < 12 ∧ ({ base with sp := 12 } : State).sp.val = 12 := by
  decide

theorem witness_Return :
    ({ base with sp := 12 } : State).sp.val = (11 : Fin 16).val + 1 ∧
    ({ base with sp := 1 } : State).sp.val = (0 : Fin 16).val + 1 ∧ base.sp.val = 0 := by decide

theorem witness_NestedCalls : base.sp.val + (List.replicate 12 (0x300 : Addr)).length ≤ 12 := by decide

theorem witness_TwelveCalls :
    base.sp.val = 0 ∧ base.status = .running ∧ (List.replicate 12 (0x300 : Addr)).length = 12 := by
  decide

/-- Both sides of the bound for the block store and load. -/
theorem witness_Blocks :
    (atI 0xFF0).i.toNat + (15 : RegIx).val ≤ 0xFFF ∧ (atI 0xFFF).i.toNat + (0 : RegIx).val ≤ 0xFFF ∧
    0xFFF < (atI 0xFF1).i.toNat + (15 : RegIx).val ∧ 0xFFF < (atI 0x1000).i.toNat + (0 : RegIx).val := by
  decide

theorem witness_DecimalStore :
    (atI 0xFFD).i.toNat + 2 ≤ 0xFFF ∧ 0xFFF < (atI 0xFFE).i.toNat + 2 := by decide

theorem witness_BlockLoadInverts :
    ∃ t u : State, (atI 0xFF0).i.toNat + (15 : RegIx).val ≤ 0xFFF ∧
      exec (.storeRegs 15) (atI 0xFF0) = .next t ∧ u.mem = t.mem ∧ u.cfg = t.cfg ∧ u.i = t.i ∧
      u.getV 0 = 7 :=
  ⟨_, regs [(0, 7)] { atI 0xFF0 with mem := _ }, by decide, rfl, rfl, rfl, rfl, by decide⟩

/-- What a store, a digit store, CLS, DRW and a faulting store leave, and later states at other pcs: I at
pc, I below pc, one of the two bytes only, and the last place a fetch reads. -/
theorem witness_StoreIsSeen :
    ∃ t t2 t3 : State, exec (.storeRegs 1) (regs [(0, 0x12), (1, 0x08)] (atI 0xFFE)) = .next t ∧
      ({ t with pc := 0xFFE } : State).pc.toNat + 1 ≤ 0xFFF ∧
      byteAfter (.storeRegs 1) (regs [(0, 0x12), (1, 0x08)] (atI 0xFFE)) t 0xFFF = 0x08 ∧
      exec (.ldB 5) (regs [(5, 0xEF)] (atI 0x300)) = .next t2 ∧
      byteAfter (.ldB 5) (regs [(5, 0xEF)] (atI 0x300)) t2 0x302 = 9 ∧
      byteAfter (.ldB 5) (regs [(5, 0xEF)] (atI 0x300)) t2 0x303 = 0 ∧
      exec (.storeRegs 15) (regs [(0, 0x12)] (atI 0xFF1)) = .next t3 ∧
      byteAfter (.storeRegs 15) (regs [(0, 0x12)] (atI 0xFF1)) t3 0xFF1 = 0 :=
  ⟨_, _, _, rfl, by decide, by decide, rfl, by decide, by decide, rfl, by decide⟩

theorem witness_TimerInstructions : base.status = .running := by decide

theorem witness_RandomByteAndMask :
    (lastWord 0xC30F).status = .running ∧ (lastWord 0xC30F).pc.toNat + 1 ≤ 0xFFF ∧
    wordAtPc (lastWord 0xC30F) = encodeKk 0xC 3 0x0F := by decide

/-- Ticks of LD DT, LD ST and another instruction that complete, and one that faults. -/
theorem witness_TimersCount :
    decode (wordAtPc (lastWord 0xF215)) = .ok (.ldDtVx 2) ∧
    field State.status (tick 0 (lastWord 0xF215)) = some .running ∧
    decode (wordAtPc (lastWord 0xF218)) = .ok (.ldStVx 2) ∧
    field State.status (tick 0 (lastWord 0xF218)) = some .running ∧
    decode (wordAtPc (lastWord 0x1300)) = .ok (.jp 0x300) ∧
    field State.status (tick 0 (lastWord 0x1300)) = some .running ∧
    decode (wordAtPc (lastWord 0x00EE)) = .ok .ret ∧
    field State.status (tick 0 (lastWord 0x00EE)) = some (.halted (.stackUnderflow 0xFFE)) := by
  decide

/-- Two ticks of a self-loop. -/
theorem witness_DelayTimer :
    ∃ t, TicksWithoutLdDt 2 (State.placeWord 0x1200 { State.reset with dt := 5 }) t := by
  have loop : ∀ s : State, decode (wordAtPc s) = .ok (.jp 0x200) →
      ∀ x, decode (wordAtPc s) ≠ .ok (.ldDtVx x) := fun s h x h' => by
    rw [h] at h'; exact Instr.noConfusion (Except.ok.inj h')
  exact ⟨_, _, rfl, rfl, loop _ rfl, _, rfl, rfl, loop _ rfl, rfl⟩

/-- Pressed; released; another key's value; and a flag byte that is not 0xFF. -/
theorem witness_Keys :
    ((latch 0 base).peek (latch 0 base).cfg.keyPressedAddr = 0xFF ∧
      (latch 0 base).peek (latch 0 base).cfg.keyValueAddr = (latch 0 base).getV 1) ∧
    ¬base.peek base.cfg.keyPressedAddr = 0xFF ∧
    (latch 15 base).peek (latch 15 base).cfg.keyValueAddr ≠ (latch 15 base).getV 1 ∧
    (base.poke 0x050 0x01).peek base.cfg.keyPressedAddr ≠ 0xFF := by decide

theorem witness_WaitingForAKey :
    (lastWord 0xF30A).status = .running ∧ (lastWord 0xF30A).pc.toNat + 1 ≤ 0xFFF ∧
    wordAtPc (lastWord 0xF30A) = encodeKk 0xF 3 0x0A ∧
    (lastWord 0xF30A).peek (lastWord 0xF30A).cfg.keyPressedAddr ≠ 0xFF := by decide

/-- The bounds of DRW: n = 0 anywhere, the last legal base, and the first illegal one. -/
theorem witness_DrawBounds :
    ((0 : Nibble) = 0 ∨ (atI 0xFFFF).i.toNat + (0 : Nibble).toNat ≤ 0x1000) ∧
    (atI 0xFFD).i.toNat + (3 : Nibble).toNat ≤ 0x1000 ∧
    (3 : Nibble) ≠ 0 ∧ 0x1000 < (atI 0xFFE).i.toNat + (3 : Nibble).toNat := by decide

/-- A lit byte, and a sprite byte at 0x300. -/
def lit (old row : Byte) : State :=
  { base with i := 0x300, mem := Memory.write base.cfg [(0x300, row)] 0x100 old }

/-- DS6 turns the pixel at column 4 off. -/
theorem witness_DrawCollides :
    ∃ t, exec (.drw 0 1 1) (lit 0x0F 0x18) = .next t ∧ SomePixelTurnedOff (lit 0x0F 0x18) t :=
  ⟨_, rfl, 4, 0, by decide, by decide, by decide, by decide⟩

/-- With n = 0 nothing is drawn, so no pixel is turned off. -/
theorem witness_DrawWithoutCollision :
    ∃ t, exec (.drw 0 1 0) (lit 0x0F 0x18) = .next t ∧ ¬SomePixelTurnedOff (lit 0x0F 0x18) t := by
  refine ⟨_, rfl, ?_⟩
  rintro ⟨px, py, -, -, h, h'⟩
  exact Bool.false_ne_true (h'.symm.trans h)

/-- Sprites that end just below the framebuffer, begin just above it, end at 0xFFF, and have no rows. -/
theorem witness_DrawXors :
    (atI 0x0FF).i.toNat + 1 ≤ (atI 0x0FF).cfg.fbBase ∧ SpriteApart (atI 0x0FF) 1 ∧
    SpriteApart (atI 0x200) 15 ∧ SpriteApart (atI 0xFF1) 15 ∧ SpriteApart (atI 0xFFFF) 0 := by
  unfold SpriteApart; decide

/-- A sprite in the framebuffer it draws on, X = 8: row 0 copies byte 0 to byte 1, and row 1 reads the
byte 1 that row 0 left (R202, D16; by hand). -/
theorem witness_DrawReadsEachRow :
    ((2 : Nibble) = 0 ∨ (atI 0x100).i.toNat + (2 : Nibble).toNat ≤ 0x1000) ∧
    ∃ t, exec (.drw 0 1 2) (regs [(0, 8)] { atI 0x100 with mem := [(0x100, 0xF0)] }) = .next t ∧
      fb 1 t = 0xF0 ∧ fb 9 t = 0xF0 := ⟨by decide, _, rfl, by decide, by decide⟩

/-- With x = 15 the first draw's flag overwrites the coordinate, 60 here; the second draw names V2, which
held it all along, and pc, V5 and a byte outside sprite and framebuffer changed in between. -/
theorem witness_DrawingTwice :
    ∃ t t' u, SpriteApart (regs [(15, 60), (2, 60)] (lit 0x0F 0x18)) (1 : Nibble).toNat ∧
      exec (.drw 15 1 1) (regs [(15, 60), (2, 60)] (lit 0x0F 0x18)) = .next t ∧
      t' = regs [(5, 7)] ((t.poke 0x400 9).setPc 0x208) ∧ t'.cfg = t.cfg ∧ t'.i = t.i ∧
      (∀ k < 256, t'.peek (t.cfg.fbBase + k) = t.peek (t.cfg.fbBase + k)) ∧
      (∀ r < (1 : Nibble).toNat, t'.peek (t.i.toNat + r) = t.peek (t.i.toNat + r)) ∧
      t'.getV 2 = (regs [(15, 60), (2, 60)] (lit 0x0F 0x18)).getV 15 ∧
      t'.getV 1 = (regs [(15, 60), (2, 60)] (lit 0x0F 0x18)).getV 1 ∧
      exec (.drw 2 1 1) t' = .next u := by
  refine ⟨_, _, _, by unfold SpriteApart; decide, rfl, rfl, rfl, rfl, fun k hk => ?_, fun r hr => ?_,
    by decide, by decide, rfl⟩
  · have hne : 0x100 + k ≠ 0x400 := by omega
    exact (Memory.read_write _ _ 0x400 9 (0x100 + k)).trans (if_neg hne)
  · have hne : 0x300 + r ≠ 0x400 := by have : r < 1 := hr; omega
    exact (Memory.read_write _ _ 0x400 9 (0x300 + r)).trans (if_neg hne)

theorem witness_DrawNotifies : ∃ t, exec (.drw 0 1 1) (lit 0x0F 0x18) = .next t := ⟨_, rfl⟩

theorem witness_StepRuns :
    ∃ t, (lastWord 0x1300).status = .running ∧ (lastWord 0x1300).pc.toNat + 1 ≤ 0xFFF ∧
      decode (wordAtPc (lastWord 0x1300)) = .ok (.jp 0x300) ∧
      exec (.jp 0x300) (executeView (Config.randomByte (lastWord 0x1300).rndIndex)
        { lastWord 0x1300 with rndIndex := (lastWord 0x1300).rndIndex + 1 }) = .next t :=
  ⟨_, by decide, by decide, by decide, rfl⟩

theorem witness_InstructionFetch :
    ({ base with pc := 0xFFF } : State).status = .running ∧
    0xFFF < ({ base with pc := 0xFFF } : State).pc.toNat + 1 ∧
    0xFFF < ({ base with pc := 0xFFFF } : State).pc.toNat + 1 ∧
    ({ base with pc := 0xFFE } : State).pc.toNat + 1 ≤ 0xFFF := by decide

theorem witness_IllegalWord :
    (lastWord 0x8AB8).status = .running ∧ (lastWord 0x8AB8).pc.toNat + 1 ≤ 0xFFF ∧
    legalWord (wordAtPc (lastWord 0x8AB8)) = false := by decide

theorem witness_Halted :
    ({ base with status := .halted (.stackUnderflow 0x200) } : State).status =
      .halted (.stackUnderflow 0x200) := by rfl

theorem witness_ExecuteAndTickFaults : base.status = .running := by decide

/-- A faulting tick. -/
theorem witness_FaultsArePrecise :
    ∃ t, tick 0 base = .next t ∧ t.status = .halted (.decodeError 0x202 0x0000) := ⟨_, rfl, rfl⟩

theorem witness_PressKey : (15 : Byte).toNat ≤ 15 ∧ 15 < (16 : Byte).toNat := by decide

/-- Another key, and another ROM length, than the moves of the host have: `witness_PressKey` has 16, and
this ROM has any length, 3584 and 3585 among them. -/
theorem witness_Reset (n : Nat) : ∃ rom : List Byte, rom.length = n :=
  ⟨List.replicate n 0, List.length_replicate⟩

/-- Halted, a move that leaves it, and one that does not. -/
theorem witness_OnlyResetLeavesHalted :
    (∃ t, hostMove (.reset []) { base with status := .halted (.stackUnderflow 0x200) } = .next t ∧
      t.status = .running) ∧
    ∃ t, hostMove .releaseKey { base with status := .halted (.stackUnderflow 0x200) } = .next t ∧
      t.status ≠ .running := ⟨⟨_, rfl, rfl⟩, _, rfl, by decide⟩

theorem base_inv : Inv base :=
  ⟨⟨List.Pairwise.nil, by decide⟩, by decide, fun _ h => absurd h (by simp [base, State.reset,
    State.resetWith]), fun h => absurd rfl h⟩

theorem witness_StepKeepsTheInvariant : Inv base ∧ ∃ t, step base = .next t := ⟨base_inv, _, rfl⟩

theorem witness_HostMovesKeepTheInvariant : Inv base ∧ ∃ t, hostMove (.pressKey 15) base = .next t :=
  ⟨base_inv, _, rfl⟩

/-- Instructions that do not fault: at the last legal address, depth and sprite. -/
theorem witness_Frame :
    instrFault (.storeRegs 15) (atI 0xFF0) = none ∧ instrFault (.drw 0 1 3) (atI 0xFFD) = none ∧
    instrFault (.call 0x300) { base with sp := 11 } = none ∧
    (∃ t, exec (.storeRegs 15) (atI 0xFF0) = .next t) :=
  ⟨by decide, by decide, by decide, _, rfl⟩

theorem witness_MemoryChanges :
    ¬storesAt (.storeRegs 2) (atI 0x300) 0x2FF ∧ ¬storesAt (.storeRegs 2) (atI 0x300) 0x303 ∧
    ¬storesAt (.ldB 5) (atI 0x300) 0x2FF ∧ ¬storesAt (.ldB 5) (atI 0x300) 0x303 ∧
    ¬storesAt .cls base 0x0FF ∧ ¬storesAt .cls base 0x200 ∧
    ¬storesAt (.drw 0 1 1) (atI 0x300) 0x0FF ∧ ¬storesAt (.drw 0 1 1) (atI 0x300) 0x200 ∧
    ¬storesAt (.loadRegs 2) (atI 0x300) 0x300 ∧
    (∃ t, exec (.storeRegs 2) (atI 0x300) = .next t) ∧ (∃ t, exec (.ldB 5) (atI 0x300) = .next t) ∧
    (∃ t, exec .cls base = .next t) ∧ (∃ t, exec (.drw 0 1 1) (atI 0x300) = .next t) := by
  refine ⟨?_, ?_, ?_, ?_, ?_, ?_, ?_, ?_, ?_, ⟨_, rfl⟩, ⟨_, rfl⟩, ⟨_, rfl⟩, ⟨_, rfl⟩⟩ <;>
    simp [storesAt, atI, base, State.reset, State.resetWith, Config.default]

theorem witness_RegistersChange :
    ¬writesRegister (.loadRegs 2) 3 ∧ ∃ t, exec (.loadRegs 2) (atI 0x300) = .next t := by
  refine ⟨?_, _, rfl⟩
  simp only [writesRegister]
  decide

theorem witness_FlagWrites :
    (Instr.drw 0 1 1) ∈ [Instr.addReg 0 1, .sub 0 1, .shr 0 1, .subn 0 1, .shl 0 1, .drw 0 1 1] ∧
    instrFault (.drw 0 1 1) (atI 0x300) = none ∧
    ∃ t, exec (.drw 0 1 1) (atI 0x300) = .next t := ⟨by decide, by decide, _, rfl⟩

/-- A jump, a call and a return that complete, a call that faults, and the wait. -/
theorem witness_ProgramCounterLaw :
    (∃ t, exec (.jp 0xABC) base = .next t) ∧
    (∃ t, exec (.call 0x400) { base with sp := 11 } = .next t ∧ t.pc = 0x400) ∧
    (∃ t, exec (.call 0x400) { base with sp := 12 } = .next t ∧ t.pc = 0x202) ∧
    (∃ t, exec .ret { base with sp := 1, stack := base.stack.set 0 0x300 } = .next t ∧ t.pc = 0x300) ∧
    (∃ t, exec (.ldVxK 3) base = .next t ∧ t.pc = 0x200) :=
  ⟨⟨_, rfl⟩, ⟨_, rfl, by decide⟩, ⟨_, rfl, by decide⟩, ⟨_, rfl, by decide⟩, _, rfl, by decide⟩

theorem witness_OnlyRnd :
    (∃ t, exec (.addReg 0 1) base = .next t) ∧ (∀ x kk, Instr.addReg 0 1 ≠ .rnd x kk) ∧
    ∀ x, Instr.addReg 0 1 ≠ .ldStVx x := by simp [exec, execAddReg]

theorem witness_KeepTheLatch :
    (∀ x, Instr.drw 0 1 1 ≠ .storeRegs x ∧ Instr.drw 0 1 1 ≠ .ldB x) ∧
    ∃ t, exec (.drw 0 1 1) (atI 0x300) = .next t := ⟨by simp, _, rfl⟩

end Sys2Proof.Tests
end

section
/-! PROOFS. What an instruction does to the state, said once: the fault it raises, or the one update of
the state it makes. -/

namespace Sys2Proof.Machine

/-! ## The fault an instruction raises -/

/-- The fault of an access to the `n` bytes from I, if one of them lies past 0xFFF (R51, R55, R220). -/
def rangeFault (n : Nat) (s : State) : Option Fault :=
  if n ≠ 0 ∧ 4096 < s.i.toNat + n then
    some (.addressOutOfRange s.instrAddr (max s.i.toNat 4096))
  else none

theorem inRange_of_rangeFault_none {n : Nat} {s : State} (h : rangeFault n s = none) :
    n = 0 ∨ s.i.toNat + n ≤ 4096 := by
  unfold rangeFault at h
  split at h
  · cases h
  · omega

theorem accessing_of_rangeFault_none {n : Nat} {s : State} (act : State → State)
    (h : rangeFault n s = none) : accessing s.i.toNat n act s = act s :=
  accessing_inRange act s (inRange_of_rangeFault_none h)

theorem accessing_of_rangeFault_some {n : Nat} {s : State} {f : Fault} (act : State → State)
    (h : rangeFault n s = some f) : accessing s.i.toNat n act s = s.raise f := by
  unfold rangeFault at h
  split at h
  · rename_i hn
    cases h
    exact accessing_outOfRange act s hn.1 hn.2
  · cases h

theorem instrFault_call (nnn : Addr) (s : State) : instrFault (.call nnn) s =
    if s.sp.val = 12 then some (.stackOverflow s.instrAddr nnn) else none := rfl

theorem instrFault_ret (s : State) : instrFault .ret s =
    if s.sp.val = 0 then some (.stackUnderflow s.instrAddr) else none := rfl

theorem instrFault_storeRegs (x : RegIx) (s : State) :
    instrFault (.storeRegs x) s = rangeFault (x.val + 1) s := by
  refine if_congr ?_ rfl rfl
  omega

theorem instrFault_loadRegs (x : RegIx) (s : State) :
    instrFault (.loadRegs x) s = rangeFault (x.val + 1) s :=
  instrFault_storeRegs x s

theorem instrFault_ldB (x : RegIx) (s : State) : instrFault (.ldB x) s = rangeFault 3 s := by
  refine if_congr ?_ rfl rfl
  omega

theorem instrFault_drw (x y : RegIx) (n : Nibble) (s : State) :
    instrFault (.drw x y n) s = rangeFault n.toNat s := by
  by_cases hn : n = 0
  · subst hn; rfl
  · have hn' : n.toNat ≠ 0 := fun e => hn (BitVec.eq_of_toNat_eq e)
    refine (if_neg hn).trans (if_congr ?_ rfl rfl)
    omega

/-- An instruction to which R220's table assigns a fault raises it and does nothing else (R221). -/
theorem exec_of_instrFault {ins : Instr} {s : State} {f : Fault} (h : instrFault ins s = some f) :
    exec ins s = .next (s.raise f) := by
  cases ins
  case call nnn =>
    rw [instrFault_call] at h
    split at h <;> cases h
    exact congrArg Host.Outcome.next (s.pushCall_full nnn ‹_›)
  case ret =>
    rw [instrFault_ret] at h
    split at h <;> cases h
    exact congrArg Host.Outcome.next (s.popReturn_empty ‹_›)
  case storeRegs x =>
    exact congrArg Host.Outcome.next
      (accessing_of_rangeFault_some _ ((instrFault_storeRegs x s).symm.trans h))
  case loadRegs x =>
    exact congrArg Host.Outcome.next
      (accessing_of_rangeFault_some _ ((instrFault_loadRegs x s).symm.trans h))
  case ldB x =>
    exact congrArg Host.Outcome.next
      (accessing_of_rangeFault_some _ ((instrFault_ldB x s).symm.trans h))
  case drw x y n =>
    exact congrArg Host.Outcome.next
      (accessing_of_rangeFault_some _ ((instrFault_drw x y n s).symm.trans h))
  all_goals cases h

/-! ## The update an instruction makes -/

/-- With no key latched LD Vx, K goes back to itself (R185). -/
theorem execLdVxK_released (x : RegIx) {s : State} (h : s.pressedKeyValue = none) :
    execLdVxK x s = .next s.rewind := by
  simp only [execLdVxK, h]

/-- With a key latched LD Vx, K takes its value (R185). -/
theorem execLdVxK_pressed (x : RegIx) {s : State} {b : Byte} (h : s.pressedKeyValue = some b) :
    execLdVxK x s = .next (s.setV x b) := by
  simp only [execLdVxK, h]

/-- The updates of the state an instruction makes when it raises no fault, each with the parts it may
change. `weaken` is for LD Vx, K, which either writes Vx or goes back (R185). -/
inductive Update (s : State) : List Part → State → Prop
  | setV (x : RegIx) (b : Byte) : Update s [.v] (s.setV x b)
  | setResultFlag (x : RegIx) (rf : Byte × Byte) : Update s [.v] (s.setResultFlag x rf)
  | loadBlock (x : RegIx) : Update s [.v] (s.loadBlock x)
  | setI (w : Word) : Update s [.i] (s.setI w)
  | setPc (w : Word) : Update s [.pc] (s.setPc w)
  | skipIf (c : Bool) : Update s [.pc] (s.skipIf c)
  | setDt (b : Byte) : Update s [.dt] (s.setDt b)
  | setSt (b : Byte) : Update s [.st] (s.setSt b)
  | pokes (a : Nat) (bs : List Byte) (inside : a + bs.length ≤ 4096) : Update s [.mem] (s.pokes a bs)
  | clear : Update s [.mem, .events] ((s.pokes s.cfg.fbBase clearScreen).emit .screenCleared)
  | draw (X Y : Byte) (base h : Nat) : Update s [.mem, .v, .events] (drawAndFlag X Y base h s)
  | call (target : Addr) (room : s.sp.val < 12) : Update s [.pc, .stack] (s.pushCall target)
  | ret (entry : s.sp.val ≠ 0) : Update s [.pc, .stack] s.popReturn
  | weaken {parts parts' : List Part} {t : State} (u : Update s parts t)
      (sub : ∀ p, p ∈ parts → p ∈ parts') : Update s parts' t

theorem exec_storeRegs_of_noFault {x : RegIx} {s : State} (hf : instrFault (.storeRegs x) s = none) :
    exec (.storeRegs x) s = .next (s.pokes s.i.toNat (s.block x)) :=
  congrArg Host.Outcome.next
    (accessing_of_rangeFault_none _ ((instrFault_storeRegs x s).symm.trans hf))

theorem exec_loadRegs_of_noFault {x : RegIx} {s : State} (hf : instrFault (.loadRegs x) s = none) :
    exec (.loadRegs x) s = .next (s.loadBlock x) :=
  congrArg Host.Outcome.next
    (accessing_of_rangeFault_none _ ((instrFault_loadRegs x s).symm.trans hf))

theorem exec_ldB_of_noFault {x : RegIx} {s : State} (hf : instrFault (.ldB x) s = none) :
    exec (.ldB x) s = .next (s.pokes s.i.toNat (bcdDigits (s.getV x))) :=
  congrArg Host.Outcome.next (accessing_of_rangeFault_none _ ((instrFault_ldB x s).symm.trans hf))

theorem exec_drw_of_noFault {x y : RegIx} {n : Nibble} {s : State}
    (hf : instrFault (.drw x y n) s = none) :
    exec (.drw x y n) s = .next (drawAndFlag (s.getV x) (s.getV y) s.i.toNat n.toNat s) :=
  execDrw_inRange x y n s (inRange_of_rangeFault_none ((instrFault_drw x y n s).symm.trans hf))

/-- An instruction that raises no fault makes one update of the parts its rule names. -/
theorem exec_update {ins : Instr} {s t : State} (hf : instrFault ins s = none)
    (hx : exec ins s = .next t) : Update s (mayChange ins) t := by
  cases ins
  case ldImm | addImm | ldReg | orReg | andReg | xorReg | rnd | ldVxDt =>
    cases hx
    exact .setV _ _
  case addReg | sub | shr | subn | shl =>
    cases hx
    exact .setResultFlag _ _
  case ldI | addI | ldF =>
    cases hx
    exact .setI _
  case jp | jpV0 =>
    cases hx
    exact .setPc _
  case seImm | sneImm | seReg | sneReg | skp | sknp =>
    cases hx
    exact .skipIf _
  case ldDtVx =>
    cases hx
    exact .setDt _
  case ldStVx =>
    cases hx
    exact .setSt _
  case ldVxK x =>
    cases hk : s.pressedKeyValue with
    | none =>
      cases (execLdVxK_released x hk).symm.trans hx
      exact .weaken (.setPc _) fun _ => List.mem_append_left [Part.v]
    | some b =>
      cases (execLdVxK_pressed x hk).symm.trans hx
      exact .weaken (.setV _ _) fun _ => List.mem_cons_of_mem Part.pc
  case call nnn =>
    cases hx
    rw [instrFault_call] at hf
    have notFull : s.sp.val ≠ 12 := fun full => by cases (if_pos full).symm.trans hf
    have depth := s.sp_le
    exact .call nnn (by omega)
  case ret =>
    cases hx
    rw [instrFault_ret] at hf
    exact .ret fun empty => by cases (if_pos empty).symm.trans hf
  case cls =>
    exact execCls_next hx ▸ .clear
  case storeRegs x =>
    cases (exec_storeRegs_of_noFault hf).symm.trans hx
    have inside := inRange_of_rangeFault_none ((instrFault_storeRegs x s).symm.trans hf)
    exact .pokes _ _ (by rw [State.block_length]; omega)
  case ldB x =>
    cases (exec_ldB_of_noFault hf).symm.trans hx
    have inside := inRange_of_rangeFault_none ((instrFault_ldB x s).symm.trans hf)
    exact .pokes _ _ (by show s.i.toNat + 3 ≤ 4096; omega)
  case loadRegs x =>
    cases (exec_loadRegs_of_noFault hf).symm.trans hx
    exact .loadBlock x
  case drw x y n =>
    cases (exec_drw_of_noFault hf).symm.trans hx
    exact .draw _ _ _ _

/-! ## Frames -/

theorem pokes_frame (a : Nat) (bs : List Byte) (s : State) : Frame [.mem] s (s.pokes a bs) := by
  refine ⟨fun p hp => ?_, rfl, rfl, rfl⟩
  cases p <;> simp [Part.same, State.getV] at hp ⊢

theorem emit_frame (e : Event) (s : State) : Frame [.events] s (s.emit e) := by
  refine ⟨fun p hp => ?_, rfl, rfl, rfl⟩
  cases p <;> simp [Part.same, State.getV] at hp ⊢

/-- CLS as a write of the framebuffer followed by its event. -/
theorem clear_frame (s : State) :
    Frame [.mem, .events] s ((s.pokes s.cfg.fbBase clearScreen).emit .screenCleared) :=
  ((pokes_frame _ _ s).mono (by simp)).trans ((emit_frame _ _).mono (by simp))

theorem pushCall_frame (target : Addr) {s : State} (room : s.sp.val < 12) :
    Frame [.pc, .stack] s (s.pushCall target) := by
  rw [State.pushCall_below s target room]
  refine ⟨fun p hp => ?_, rfl, rfl, rfl⟩
  cases p <;> simp [Part.same, State.getV, State.peek] at hp ⊢

theorem popReturn_frame {s : State} (entry : s.sp.val ≠ 0) : Frame [.pc, .stack] s s.popReturn := by
  rw [State.popReturn_entry s entry]
  refine ⟨fun p hp => ?_, rfl, rfl, rfl⟩
  cases p <;> simp [Part.same, State.getV, State.peek] at hp ⊢

/-- An update leaves the parts it does not name as they are. -/
theorem Update.frame {s t : State} {parts : List Part} (u : Update s parts t) : Frame parts s t := by
  induction u with
  | pokes a bs => exact pokes_frame a bs s
  | clear => exact clear_frame s
  | draw X Y base h => exact drawAndFlag_frame X Y base h s
  | call target room => exact pushCall_frame target room
  | ret entry => exact popReturn_frame entry
  | weaken _ sub ih => exact ih.mono sub
  | setV | setResultFlag | loadBlock | setI | setPc | skipIf | setDt | setSt =>
    refine ⟨fun p hp => ?_, by simp, by simp, by simp⟩
    cases p <;> simp [Part.same, State.getV] at hp ⊢

/-- A part that an instruction's rule does not name is kept, by a completed instruction and by a
faulting one (R221). -/
theorem exec_keeps_part {ins : Instr} {s t : State} {p : Part} (hx : exec ins s = .next t)
    (hp : p ∉ mayChange ins) (hp' : p ∉ [.status, .events]) : p.same s t := by
  cases hf : instrFault ins s with
  | none => exact (exec_update hf hx).frame.1 p hp
  | some f =>
    cases (exec_of_instrFault hf).symm.trans hx
    exact (raise_frame f s).1 p hp'

/-- Settles O50: the update an instruction makes keeps every part its rule does not name. -/
theorem everyInstructionKeepsItsFrame : Obligations.EveryInstructionKeepsItsFrame :=
  fun _ _ _ hf hx => (exec_update hf hx).frame

end Sys2Proof.Machine
end

section
/-! PROOFS. The invariant of the machine: at reset, and through every step. -/

namespace Sys2Proof.Machine

/-! ## The parts of the invariant through each operation -/

/-- The invariant of a Running state, whose events need not be empty. -/
theorem Inv.of_running {t : State} (running : t.status = .running) (memory : Memory.wf t.cfg t.mem)
    (reservedSlots : ∀ k : Fin 16, 12 ≤ k.val → t.stack[k] = 0)
    (events : ∀ e ∈ t.events, e.inRange) : Inv t :=
  ⟨memory, reservedSlots, events, fun halted => absurd running halted⟩

/-- The invariant speaks of memory, its parameters, the stack slots, the events and the status only. -/
theorem Inv.congr {s t : State} (h : Inv s) (mem : t.mem = s.mem) (cfg : t.cfg = s.cfg)
    (stack : t.stack = s.stack) (events : t.events = s.events) (status : t.status = s.status) :
    Inv t where
  memory := by rw [mem, cfg]; exact h.memory
  reservedSlots := by rw [stack]; exact h.reservedSlots
  events := by rw [events]; exact h.events
  quietHalt := by rw [events, status]; exact h.quietHalt

theorem raise_inv (f : Fault) {s : State} (h : Inv s) : Inv (s.raise f) where
  memory := h.memory
  reservedSlots := h.reservedSlots
  events := by simp
  quietHalt _ := rfl

theorem pokes_inv (a : Nat) (bs : List Byte) {s : State} (inside : a + bs.length ≤ 4096)
    (h : Inv s) : Inv (s.pokes a bs) where
  memory := State.pokes_wf a bs s inside h.memory
  reservedSlots := h.reservedSlots
  events := h.events
  quietHalt := h.quietHalt

/-- A Running tick may add an event that names a byte of the framebuffer (R205). -/
theorem emit_inv {e : Event} {s : State} (he : e.inRange) (hr : s.status = .running) (h : Inv s) :
    Inv (s.emit e) := by
  refine .of_running hr h.memory h.reservedSlots fun e' he' => ?_
  rcases List.mem_append.1 he' with old | new
  · exact h.events e' old
  · exact List.mem_singleton.1 new ▸ he

/-- A CALL writes the slot of the depth, which is below 12 (R28, R101). -/
theorem pushCall_inv (target : Addr) {s : State} (room : s.sp.val < 12) (hr : s.status = .running)
    (h : Inv s) : Inv (s.pushCall target) := by
  rw [State.pushCall_below s target room]
  refine .of_running hr h.memory (fun k hk => ?_) h.events
  exact (Vector.getElem_set_ne (by omega) k.isLt (by omega)).trans (h.reservedSlots k hk)

theorem popReturn_inv {s : State} (entry : s.sp.val ≠ 0) (h : Inv s) : Inv s.popReturn := by
  rw [State.popReturn_entry s entry]
  exact h.congr rfl rfl rfl rfl rfl

/-! ## The blitter's events -/

/-- XorByte notifies the framebuffer byte it writes (R202, R205). -/
theorem xorByte_inv {k : Nat} (v : Byte) {b : Blit} (hk : k < 256) (hr : b.s.status = .running)
    (h : Inv b.s) : Inv (xorByte k v b).s := by
  have hb := config_bounds b.s.cfg
  have poked : Inv (b.s.poke (b.s.cfg.fbBase + k) (b.s.peek (b.s.cfg.fbBase + k) ^^^ v)) :=
    pokes_inv (b.s.cfg.fbBase + k) [b.s.peek (b.s.cfg.fbBase + k) ^^^ v]
      (by simp only [List.length_singleton]; omega) h
  exact emit_inv hk hr poked

theorem blitRow_inv (X Y : Byte) (base r : Nat) {b : Blit} (hr : b.s.status = .running)
    (h : Inv b.s) : Inv (blitRow X Y base r b).s := by
  have first := xorByte_inv (b.s.peek (base + r) >>> (X.toNat % 8)) (blitOff0_lt X Y r) hr h
  unfold blitRow
  dsimp only
  split
  · exact first
  · exact xorByte_inv _ (blitOff1_lt X Y r) hr first

theorem blitRows_inv (X Y : Byte) (base r n : Nat) {b : Blit} (hr : b.s.status = .running)
    (h : Inv b.s) : Inv (blitRows X Y base r n b).s := by
  induction n generalizing r b with
  | zero => exact h
  | succ n ih =>
    exact ih (r + 1) ((blitRow_keeps X Y base r b).status.trans hr) (blitRow_inv X Y base r hr h)

theorem drawAndFlag_inv (X Y : Byte) (base n : Nat) {s : State} (hr : s.status = .running)
    (h : Inv s) : Inv (drawAndFlag X Y base n s) := by
  have drawn : Inv (drawSprite X Y base n s).s := blitRows_inv (b := ⟨s, false⟩) X Y base 0 n hr h
  exact drawn.congr rfl rfl rfl rfl rfl

/-! ## Instructions, ticks and steps -/

/-- Every update of a Running state keeps the invariant. -/
theorem Update.inv {s t : State} {parts : List Part} (u : Update s parts t)
    (hr : s.status = .running) (h : Inv s) : Inv t := by
  induction u with
  | setV | setResultFlag | loadBlock | setI | setPc | setDt | setSt =>
    exact h.congr rfl rfl rfl rfl rfl
  | skipIf c => exact h.congr (by simp) (by simp) (by simp) (by simp) (by simp)
  | pokes a bs inside => exact pokes_inv a bs inside h
  | clear =>
    have hb := config_bounds s.cfg
    exact emit_inv trivial ((State.pokes_status ..).trans hr)
      (pokes_inv _ _ (by rw [clearScreen_length]; omega) h)
  | draw X Y base n => exact drawAndFlag_inv X Y base n hr h
  | call target room => exact pushCall_inv target room hr h
  | ret entry => exact popReturn_inv entry h
  | weaken _ _ ih => exact ih

/-- Execute keeps the invariant of a Running state, whether it completes or faults. -/
theorem exec_inv {ins : Instr} {s t : State} (hr : s.status = .running) (h : Inv s)
    (hx : exec ins s = .next t) : Inv t := by
  cases hf : instrFault ins s with
  | none => exact (exec_update hf hx).inv hr h
  | some f =>
    cases (exec_of_instrFault hf).symm.trans hx
    exact raise_inv f h

theorem endTick_inv {s : State} (h : Inv s) : Inv s.endTick :=
  h.congr (by simp) (by simp) (by simp) (by simp) (by simp)

/-- What a tick answers with a next state is what Execute answered, after the timer update. -/
theorem afterExecute_next {r : Result} {t : State} (h : afterExecute r = .next t) :
    ∃ u, r = .next u ∧ t = u.endTick := by
  cases r with
  | next u => exact ⟨u, rfl, (Host.Outcome.next.inj h).symm⟩
  | fault | refused => cases h

theorem runWord_inv {a w : Word} {s t : State} (hr : s.status = .running) (h : Inv s)
    (hx : runWord a w s = .next t) : Inv t := by
  cases hd : decode w with
  | error e =>
    cases (runWord_error s a w e hd).symm.trans hx
    exact raise_inv _ h
  | ok ins =>
    obtain ⟨u, hu, rfl⟩ := afterExecute_next ((runWord_ok s a w ins hd).symm.trans hx)
    exact endTick_inv (exec_inv hr h hu)

/-- The start of a tick forgets the events of the tick before it. -/
theorem beginTick_inv (b : Byte) {s : State} (h : Inv s) : Inv (s.beginTick b) where
  memory := h.memory
  reservedSlots := h.reservedSlots
  events := by simp
  quietHalt _ := rfl

/-- Every tick that is taken keeps the invariant. -/
theorem tick_inv {b : Byte} {s t : State} (h : Inv s) (hx : tick b s = .next t) : Inv t := by
  have begun := beginTick_inv b h
  cases hr : s.status with
  | halted f => cases (tick_halted b s f hr).symm.trans hx
  | running =>
    by_cases hp : s.pc.toNat + 1 ≤ 0xFFF
    · exact runWord_inv (s := (s.beginTick b).advance) hr (begun.congr rfl rfl rfl rfl rfl)
        ((tick_fetches b s hr hp).symm.trans hx)
    · cases (tick_fetchFails b s hr (by omega)).symm.trans hx
      exact raise_inv _ begun

/-- Settles O48: a step is a tick, and each part of a tick keeps the invariant. -/
theorem stepKeepsTheInvariant : Obligations.StepKeepsTheInvariant :=
  fun s _ h hx =>
    have counted : Inv { s with rndIndex := s.rndIndex + 1 } := h.congr rfl rfl rfl rfl rfl
    tick_inv counted hx

/-! ## Reset -/

theorem resetWith_stack (c : Config) (k : Fin 16) : (State.resetWith c).stack[k] = 0 :=
  Vector.getElem_replicate _

theorem resetWith_getV (c : Config) (j : RegIx) : (State.resetWith c).getV j = 0 :=
  Vector.getElem_replicate _

/-- After reset the first 80 bytes are the font (R36). -/
theorem resetWith_peek_font (c : Config) (k : Fin 80) : (State.resetWith c).peek k.val = c.font[k] :=
  dif_pos k.isLt

/-- After reset every byte past the font is zero (R36). -/
theorem resetWith_peek_zero (c : Config) {a : Nat} (h : 80 ≤ a) : (State.resetWith c).peek a = 0 :=
  dif_neg (by omega)

/-- The state after reset meets the invariant for all parameters. -/
theorem resetWith_inv (c : Config) : Inv (State.resetWith c) :=
  .of_running rfl (State.resetWith_wf c) (fun k _ => resetWith_stack c k) (fun _ he => nomatch he)

/-- Settles O47: the default parameters are one case of the invariant at reset. -/
theorem resetMeetsTheInvariant : Obligations.ResetMeetsTheInvariant :=
  resetWith_inv Config.default

/-- Settles O46: the scalar fields by computation, registers, slots and memory by the lemmas above. -/
theorem resetStateHoldsTheSpecValues : Obligations.ResetStateHoldsTheSpecValues :=
  ⟨rfl, rfl, rfl, rfl, rfl, rfl, resetWith_getV _, resetWith_stack _, resetWith_peek_font _,
    fun _ h => resetWith_peek_zero _ h, rfl, rfl, rfl⟩

end Sys2Proof.Machine
end

section
/-! PROOFS. The registers and the flag: R23's table of writers, and the values VF is left with. -/

namespace Sys2Proof.Machine

/-- After a draw VF holds the collision flag and every other register its old value (R203). -/
theorem drawAndFlag_getV (X Y : Byte) (base n : Nat) (s : State) (j : RegIx) :
    (drawAndFlag X Y base n s).getV j =
      if j = 15 then flag (drawSprite X Y base n s).collided else s.getV j := by
  have drawn : (drawSprite X Y base n s).s.getV j = s.getV j :=
    State.getV_congr s _ (blitRows_keeps X Y base 0 n ⟨s, false⟩).v j
  rw [drawAndFlag, State.getV_setV, drawn]

/-- Settles O52: a fault writes no register, and each writer writes the registers of R23's table. -/
theorem registersChangeOnlyAsTheTableSays : Obligations.RegistersChangeOnlyAsTheTableSays := by
  intro ins s t j hx hj
  cases hf : instrFault ins s with
  | some f =>
    cases (exec_of_instrFault hf).symm.trans hx
    rfl
  | none =>
    cases ins
    case ldImm | addImm | ldReg | orReg | andReg | xorReg | rnd | ldVxDt =>
      cases hx
      exact (State.getV_setV ..).trans (if_neg hj)
    case addReg | sub | shr | subn | shl =>
      cases hx
      obtain ⟨notResult, notFlag⟩ := not_or.1 hj
      exact (State.getV_setResultFlag ..).trans ((if_neg notFlag).trans (if_neg notResult))
    case ldVxK x =>
      cases hk : s.pressedKeyValue with
      | none =>
        cases (execLdVxK_released x hk).symm.trans hx
        rfl
      | some b =>
        cases (execLdVxK_pressed x hk).symm.trans hx
        exact (State.getV_setV ..).trans (if_neg hj)
    case loadRegs x =>
      cases (exec_loadRegs_of_noFault hf).symm.trans hx
      exact (State.getV_loadBlock ..).trans (if_neg hj)
    case drw x y n =>
      cases (exec_drw_of_noFault hf).symm.trans hx
      exact (drawAndFlag_getV ..).trans (if_neg hj)
    all_goals exact exec_keeps_part (p := .v) hx (of_decide_eq_false rfl) (of_decide_eq_false rfl) j

/-! ## Flags -/

theorem byte_zero_or_one {b : Byte} (h : b.toNat ≤ 1) : b = 0 ∨ b = 1 := by
  rcases Nat.le_one_iff_eq_zero_or_eq_one.1 h with h | h
  · exact .inl (BitVec.eq_of_toNat_eq h)
  · exact .inr (BitVec.eq_of_toNat_eq h)

theorem flag_zero_or_one (c : Bool) : flag c = 0 ∨ flag c = 1 := by
  cases c
  · exact .inl rfl
  · exact .inr rfl

/-- The bit SHR shifts out is the lowest (R129). -/
theorem shiftRight_flag_zero_or_one (a : Byte) : (shiftRight a).2 = 0 ∨ (shiftRight a).2 = 1 :=
  byte_zero_or_one (Nat.and_le_right : a.toNat &&& 1 ≤ 1)

/-- The bit SHL shifts out is the highest (R131). -/
theorem shiftLeft_flag_zero_or_one (a : Byte) : (shiftLeft a).2 = 0 ∨ (shiftLeft a).2 = 1 := by
  refine byte_zero_or_one ?_
  have masked : a.toNat &&& 128 ≤ 128 := Nat.and_le_right
  show (a.toNat &&& 128) >>> 7 ≤ 1
  rw [Nat.shiftRight_eq_div_pow]
  omega

/-- The flag is written last, so VF holds it whatever the destination is (R126). -/
theorem setResultFlag_vf_zero_or_one (s : State) (x : RegIx) {rf : Byte × Byte}
    (h : rf.2 = 0 ∨ rf.2 = 1) :
    (s.setResultFlag x rf).getV 15 = 0 ∨ (s.setResultFlag x rf).getV 15 = 1 := by
  rw [State.getV_setResultFlag, if_pos rfl]
  exact h

/-- Settles O53: each flag writer leaves its operation's flag in VF. -/
theorem flagWritesAreZeroOrOne : Obligations.FlagWritesAreZeroOrOne := by
  intro x y n s t ins hins hf hx
  simp only [List.mem_cons, List.not_mem_nil, or_false] at hins
  rcases hins with rfl | rfl | rfl | rfl | rfl | rfl
  · cases hx
    exact setResultFlag_vf_zero_or_one s x (flag_zero_or_one _)
  · cases hx
    exact setResultFlag_vf_zero_or_one s x (flag_zero_or_one _)
  · cases hx
    exact setResultFlag_vf_zero_or_one s x (shiftRight_flag_zero_or_one _)
  · cases hx
    exact setResultFlag_vf_zero_or_one s x (flag_zero_or_one _)
  · cases hx
    exact setResultFlag_vf_zero_or_one s x (shiftLeft_flag_zero_or_one _)
  · cases (exec_drw_of_noFault hf).symm.trans hx
    rw [drawAndFlag_getV, if_pos rfl]
    exact flag_zero_or_one _

end Sys2Proof.Machine
end

section
/-! PROOFS. The program counter after each instruction (R25). -/

namespace Sys2Proof.Machine

/-- Widening keeps the value of an address field or a byte (R9). -/
theorem zext16_toNat {n : Nat} (hn : n ≤ 16) (v : BitVec n) : (zext16 v).toNat = v.toNat :=
  BitVec.toNat_setWidth_of_le hn

/-- A skip adds 2 to pc exactly when its test holds (R104 to R107). -/
theorem skipIf_pc_iff {test : Prop} {c : Bool} (s : State) (hc : c = true ↔ test) :
    (test → (s.skipIf c).pc = s.pc + 2) ∧ (¬test → (s.skipIf c).pc = s.pc) := by
  rw [State.skipIf_pc]
  exact ⟨fun h => if_pos (hc.2 h), fun h => if_neg (mt hc.1 h)⟩

/-! ## The keypad latch -/

theorem isKeyPressed_iff (s : State) :
    s.isKeyPressed = true ↔ s.peek s.cfg.keyPressedAddr = 0xFF := beq_iff_eq

theorem isKeyValuePressed_iff (s : State) (b : Byte) :
    s.isKeyValuePressed b = true ↔ KeyLatched s b := by
  rw [State.isKeyValuePressed, Bool.and_eq_true, isKeyPressed_iff, beq_iff_eq]
  rfl

theorem not_isKeyValuePressed_iff (s : State) (b : Byte) :
    (!s.isKeyValuePressed b) = true ↔ ¬KeyLatched s b := by
  rw [← isKeyValuePressed_iff, Bool.not_eq_true', Bool.not_eq_true]

theorem pressedKeyValue_of_pressed {s : State} (h : s.peek s.cfg.keyPressedAddr = 0xFF) :
    s.pressedKeyValue = some s.keyValue :=
  if_pos ((isKeyPressed_iff s).2 h)

theorem pressedKeyValue_of_released {s : State} (h : s.peek s.cfg.keyPressedAddr ≠ 0xFF) :
    s.pressedKeyValue = none :=
  if_neg (mt (isKeyPressed_iff s).1 h)

/-! ## Calls and returns -/

theorem pushCall_pc {s : State} (target : Addr) (room : s.sp.val < 12) :
    (s.pushCall target).pc.toNat = target.toNat := by
  rw [State.pushCall_below s target room]
  exact zext16_toNat (by decide) target

theorem popReturn_pc {s : State} (top : Fin 16) (h : s.sp.val = top.val + 1) :
    s.popReturn.pc = s.stack[top] := by
  rw [State.popReturn_entry s (by omega)]
  simp [h]

/-- Settles O54: a law for each instruction that writes pc; every other one keeps it. -/
theorem programCounterLaw : Obligations.ProgramCounterLaw := by
  intro ins s t hx
  cases ins
  case jp nnn =>
    cases hx
    exact zext16_toNat (by decide) nnn
  case jpV0 nnn =>
    cases hx
    have sum : (zext16 nnn + zext16 (s.getV 0)).toNat = nnn.toNat + (s.getV 0).toNat := by
      rw [BitVec.toNat_add, zext16_toNat (by decide), zext16_toNat (by decide)]
      omega
    exact sum
  case call nnn =>
    cases hx
    refine ⟨pushCall_pc nnn, fun full => ?_⟩
    rw [State.pushCall_full s nnn full]
    rfl
  case ret =>
    cases hx
    refine ⟨popReturn_pc, fun empty => ?_⟩
    rw [State.popReturn_empty s empty]
    rfl
  case seImm | seReg =>
    cases hx
    exact skipIf_pc_iff s beq_iff_eq
  case sneImm | sneReg =>
    cases hx
    exact skipIf_pc_iff s bne_iff_ne
  case skp x =>
    cases hx
    exact skipIf_pc_iff s (isKeyValuePressed_iff s _)
  case sknp x =>
    cases hx
    exact skipIf_pc_iff s (not_isKeyValuePressed_iff s _)
  case ldVxK x =>
    refine ⟨fun released => ?_, fun pressed => ?_⟩
    · cases (execLdVxK_released x (pressedKeyValue_of_released released)).symm.trans hx
      rfl
    · cases (execLdVxK_pressed x (pressedKeyValue_of_pressed pressed)).symm.trans hx
      rfl
  all_goals exact exec_keeps_part (p := .pc) hx (of_decide_eq_false rfl) (of_decide_eq_false rfl)

end Sys2Proof.Machine
end

section
/-! PROOFS. Memory: the byte an address reads as after an instruction, and the fetch that
reads it. -/

namespace Sys2Proof.Machine

/-! ## Memory after each storing instruction -/

/-- LD [I], Vx stores register k at I + k and nothing else (R152). -/
theorem peek_pokes_block (x : RegIx) (s : State) (a : Nat) :
    (s.pokes s.i.toNat (s.block x)).peek a =
      if s.i.toNat ≤ a ∧ a ≤ s.i.toNat + x.val then s.getV (Fin.ofNat 16 (a - s.i.toNat))
      else s.peek a := by
  rw [State.peek_pokes]
  by_cases stored : s.i.toNat ≤ a ∧ a ≤ s.i.toNat + x.val
  · have index : (a - s.i.toNat) % 16 = a - s.i.toNat := by omega
    rw [dif_pos (by rw [State.block_length]; omega), if_pos stored, State.block_getElem]
    exact congrArg s.getV (Fin.ext index.symm)
  · rw [dif_neg (by rw [State.block_length]; omega), if_neg stored]

/-- LD B, Vx stores the three digits at `base`, `base + 1` and `base + 2` and nothing
else (R154). -/
theorem peek_pokes_bcdDigits (v : Byte) (base : Nat) (s : State) (a : Nat) :
    (s.pokes base (bcdDigits v)).peek a =
      if a = base then BitVec.ofNat 8 (v.toNat / 100)
      else if a = base + 1 then BitVec.ofNat 8 (v.toNat / 10 % 10)
      else if a = base + 2 then BitVec.ofNat 8 (v.toNat % 10)
      else s.peek a := by
  have poked : s.pokes base (bcdDigits v) =
      ((s.poke base (BitVec.ofNat 8 (v.toNat / 100))).poke (base + 1)
        (BitVec.ofNat 8 (v.toNat / 10 % 10))).poke (base + 2) (BitVec.ofNat 8 (v.toNat % 10)) := rfl
  rw [poked]
  by_cases hundreds : a = base
  · simp [hundreds]
  · by_cases tens : a = base + 1 <;> simp [hundreds, tens]

/-- CLS stores zero in every byte of the framebuffer and nothing else (R200). -/
theorem peek_pokes_clearScreen (s : State) (a : Nat) :
    (s.pokes s.cfg.fbBase clearScreen).peek a =
      if s.cfg.fbBase ≤ a ∧ a < s.cfg.fbBase + 256 then 0x00 else s.peek a := by
  rw [State.peek_pokes]
  by_cases stored : s.cfg.fbBase ≤ a ∧ a < s.cfg.fbBase + 256
  · rw [dif_pos (by rw [clearScreen_length]; exact stored), if_pos stored]
    exact clearScreen_getElem _ _
  · rw [dif_neg (by rw [clearScreen_length]; exact stored), if_neg stored]

/-- DRW stores inside the framebuffer only (R202, R208). -/
theorem drawAndFlag_peek_outside (X Y : Byte) (base n : Nat) (s : State) {a : Nat}
    (ha : ¬(s.cfg.fbBase ≤ a ∧ a < s.cfg.fbBase + 256)) :
    (drawAndFlag X Y base n s).peek a = s.peek a :=
  (blitRows_keeps X Y base 0 n ⟨s, false⟩).outside a (by dsimp only; omega)

/-! ## Memory after any instruction -/

/-- An instruction that faults stores nothing (R221). -/
theorem byteAfter_of_fault {ins : Instr} {s : State} {f : Fault} (hf : instrFault ins s = some f)
    (t : State) (a : Nat) : byteAfter ins s t a = s.peek a :=
  if_pos (by rw [hf]; rfl)

/-- `byteAfter` is what memory reads as after every instruction, completed or faulting. -/
theorem exec_peek {ins : Instr} {s t : State} (hx : exec ins s = .next t) (a : Nat) :
    t.peek a = byteAfter ins s t a := by
  cases hf : instrFault ins s with
  | some f =>
    rw [byteAfter_of_fault hf]
    cases (exec_of_instrFault hf).symm.trans hx
    rfl
  | none =>
    have completes : ¬(instrFault ins s).isSome := by rw [hf]; decide
    unfold byteAfter
    rw [if_neg completes]
    cases ins
    case storeRegs x =>
      cases (exec_storeRegs_of_noFault hf).symm.trans hx
      exact peek_pokes_block x s a
    case ldB x =>
      cases (exec_ldB_of_noFault hf).symm.trans hx
      exact peek_pokes_bcdDigits (s.getV x) s.i.toNat s a
    case cls =>
      have cleared : t = (s.pokes s.cfg.fbBase clearScreen).emit .screenCleared := execCls_next hx
      rw [cleared, State.emit_peek]
      exact peek_pokes_clearScreen s a
    case drw x y n =>
      cases (exec_drw_of_noFault hf).symm.trans hx
      dsimp only
      split
      · rfl
      · exact drawAndFlag_peek_outside _ _ _ _ s ‹_›
    all_goals
      exact exec_keeps_part (p := .mem) hx (of_decide_eq_false rfl) (of_decide_eq_false rfl) a

/-- `byteAfter` is the old byte at every address to which the instruction does not store. -/
theorem byteAfter_of_not_storesAt {ins : Instr} {s : State} {a : Nat} (h : ¬storesAt ins s a)
    (t : State) : byteAfter ins s t a = s.peek a := by
  unfold byteAfter
  split
  · rfl
  · cases ins
    case cls | drw | storeRegs => exact if_neg h
    case ldB x =>
      have outside : ¬(s.i.toNat ≤ a ∧ a ≤ s.i.toNat + 2) := h
      exact (if_neg (by omega)).trans ((if_neg (by omega)).trans (if_neg (by omega)))
    all_goals rfl

/-- Settles O51: memory after an instruction is `byteAfter`, which differs only where it stores. -/
theorem memoryChangesOnlyWhereStored : Obligations.MemoryChangesOnlyWhereStored :=
  fun _ _ t a hx h => (exec_peek hx a).trans (byteAfter_of_not_storesAt h t)

/-! ## The fetch -/

/-- The word of two bytes, the first the more significant (R52). -/
theorem wordOfBytes_toNat (hi lo : Byte) :
    (wordOfBytes hi lo).toNat = 256 * hi.toNat + lo.toNat := by
  have appended : (wordOfBytes hi lo).toNat = hi.toNat <<< 8 ||| lo.toNat :=
    BitVec.toNat_append hi lo
  rw [appended, ← Nat.shiftLeft_add_eq_or_of_lt lo.isLt, Nat.shiftLeft_eq, Nat.mul_comm]

/-- The lowest address above 0xFFF of a range that reaches past it (R55). -/
theorem lowestOutOfRange_max {first last : Nat} (nonempty : first ≤ last) (past : 0xFFF < last) :
    LowestOutOfRange first last (max first 4096) :=
  ⟨⟨le_max_left .., max_le nonempty past, le_max_right first 4096⟩,
    fun _ ⟨inside, _, above⟩ => max_le inside above⟩

/-- Settles O36: the fetch's two cases, and the tick whose fetch fails. -/
theorem instructionFetch : Obligations.InstructionFetch :=
  fun b s =>
    ⟨fun inside => ⟨_, s.fetch_inRange inside, wordOfBytes_toNat _ _⟩,
      fun running outside =>
        ⟨_, _, tick_fetchFails b s running outside,
          lowestOutOfRange_max (Nat.le_succ _) outside, rfl, rfl⟩⟩

/-- Settles O21: a fetch reads memory alone, so it reads the two bytes the instruction left. -/
theorem storeIsSeenByTheNextFetch : Obligations.StoreIsSeenByTheNextFetch := by
  intro ins s t u hx hmem hcfg inside
  have seen (a : Nat) : u.peek a = byteAfter ins s t a :=
    (State.peek_congr t u hmem hcfg a).trans (exec_peek hx a)
  rw [State.fetch_inRange u inside, seen, seen]
  rfl

end Sys2Proof.Machine
end

section
/-! PROOFS. The decoder and the encoder: a word that decodes is rebuilt from its fields, an encoded
instruction is read back, and a word that matches a row decodes to an instruction of that row. -/

namespace Sys2Proof

/-! ## Encoding what was decoded -/

variable {w : Word}

theorem encodeNnn_of_fieldA {a : Nibble} (ha : fieldA w = a) : encodeNnn a (fieldNnn w) = w := by
  rw [← ha, encodeNnn_fields]

theorem encodeKk_of_fieldA {a : Nibble} (ha : fieldA w = a) :
    encodeKk a (fieldX w) (fieldKk w) = w := by
  rw [← ha, encodeKk_fields]

theorem encodeKk_of_fields {a : Nibble} {kk : Byte} (ha : fieldA w = a) (hkk : fieldKk w = kk) :
    encodeKk a (fieldX w) kk = w := by
  rw [← hkk, encodeKk_of_fieldA ha]

theorem encodeXyn_of_fields {a n : Nibble} (ha : fieldA w = a) (hn : fieldN w = n) :
    encodeXyn a (fieldX w) (fieldY w) n = w := by
  rw [← ha, ← hn, encodeXyn_fields]

/-- What a decoder may answer for the word `w`: an instruction whose encoding is `w` (R79), or the
error that carries `w` (R73). -/
def IsAnswerFor (w : Word) : Except DecodeError Instr → Prop
  | .ok ins => encode ins = w
  | .error e => e = .unknownOpcode w

theorem decodeAlu_isAnswer (ha : fieldA w = 0x8) : IsAnswerFor w (decodeAlu w) := by
  unfold decodeAlu
  split
  case h_10 => rfl
  all_goals exact encodeXyn_of_fields ha ‹_›

theorem decodeKey_isAnswer (ha : fieldA w = 0xE) : IsAnswerFor w (decodeKey w) := by
  unfold decodeKey
  split
  case h_3 => rfl
  all_goals exact encodeKk_of_fields ha ‹_›

theorem decodeMisc_isAnswer (ha : fieldA w = 0xF) : IsAnswerFor w (decodeMisc w) := by
  unfold decodeMisc
  split
  case h_10 => rfl
  all_goals exact encodeKk_of_fields ha ‹_›

/-- Everything that `decode` can do, form by form; family `a` is the alternative `a + 1` of the match
on the first nibble (R73, R79). -/
theorem decode_isAnswer (w : Word) : IsAnswerFor w (decode w) := by
  unfold decode
  split
  case h_1 =>
    split
    · exact Eq.symm ‹w = 0x00E0›
    · split
      · exact Eq.symm ‹w = 0x00EE›
      · rfl
  case h_2 ha | h_3 ha | h_11 ha | h_12 ha => exact encodeNnn_of_fieldA ha
  case h_4 ha | h_5 ha | h_7 ha | h_8 ha | h_13 ha => exact encodeKk_of_fieldA ha
  case h_6 ha | h_10 ha =>
    split
    · exact encodeXyn_of_fields ha ‹_›
    · rfl
  case h_9 ha => exact decodeAlu_isAnswer ha
  case h_14 ha => exact encodeXyn_of_fields ha rfl
  case h_15 ha => exact decodeKey_isAnswer ha
  case h_16 ha => exact decodeMisc_isAnswer ha
  case h_17 => rfl

/-- Settles O3: an answer of `decode` that is an instruction is one whose encoding is the word. -/
theorem encodeOfDecodeIsTheWord : Obligations.EncodeOfDecodeIsTheWord := by
  intro w ins h
  have answer := decode_isAnswer w
  rwa [h] at answer

theorem decode_error_eq {e : DecodeError} (h : decode w = .error e) : e = .unknownOpcode w := by
  have answer := decode_isAnswer w
  rwa [h] at answer

/-! ## Decoding what was encoded -/

/-- Settles O2: the fields of an encoded word are the instruction's operands, and its first nibble,
with the last nibble or the low byte where the family needs it, selects the instruction. -/
theorem decodeOfEncodeIsTheInstruction : Obligations.DecodeOfEncodeIsTheInstruction := by
  intro ins
  cases ins
  case cls | ret => rfl
  case ldReg | orReg | andReg | xorReg | addReg | sub | shr | subn | shl =>
    simp [encode, decode, decodeAlu]
  case skp | sknp => simp [encode, decode, decodeKey]
  case ldVxDt | ldVxK | ldDtVx | ldStVx | addI | ldF | ldB | storeRegs | loadRegs =>
    simp [encode, decode, decodeMisc]
  all_goals simp [encode, decode]

/-! ## Rows and decoding -/

variable {bits mask : Word}

/-- A word that matches a row has the row's bits in every field that the mask fixes. -/
theorem extractLsb'_of_matchesWord (h : OpcodeRow.matchesWord ⟨bits, mask⟩ w = true)
    {start len : Nat} (fixed : mask.extractLsb' start len = BitVec.allOnes len) :
    w.extractLsb' start len = bits.extractLsb' start len := by
  have masked : w &&& mask = bits := eq_of_beq h
  rw [← masked, BitVec.extractLsb'_and, fixed, BitVec.and_allOnes]

theorem eq_of_matches_whole (h : OpcodeRow.matchesWord ⟨bits, 0xFFFF⟩ w = true) : w = bits := by
  have masked : w &&& BitVec.allOnes 16 = bits := eq_of_beq h
  rw [← masked, BitVec.and_allOnes]

theorem fieldA_of_matches (h : OpcodeRow.matchesWord ⟨bits, 0xF000⟩ w = true) :
    fieldA w = fieldA bits :=
  extractLsb'_of_matchesWord h rfl

theorem fields_of_matches_xyn (h : OpcodeRow.matchesWord ⟨bits, 0xF00F⟩ w = true) :
    fieldA w = fieldA bits ∧ fieldN w = fieldN bits :=
  ⟨extractLsb'_of_matchesWord h rfl, extractLsb'_of_matchesWord h rfl⟩

theorem fields_of_matches_low (h : OpcodeRow.matchesWord ⟨bits, 0xF0FF⟩ w = true) :
    fieldA w = fieldA bits ∧ fieldKk w = fieldKk bits :=
  ⟨extractLsb'_of_matchesWord h rfl, extractLsb'_of_matchesWord h rfl⟩

/-- The encoded word of an instruction matches the instruction's row (R75, R79). -/
theorem row_matches_encode (ins : Instr) : ins.row.matchesWord (encode ins) = true := by
  cases ins
  case cls | ret => rfl
  case jp nnn | call nnn | ldI nnn | jpV0 nnn => exact Laws.WellFormedRow.matches_nnn _ nnn
  case seImm x kk | sneImm x kk | ldImm x kk | addImm x kk | rnd x kk =>
    exact Laws.WellFormedRow.matches_kk _ x kk
  case drw x y n => exact Laws.WellFormedRow.matches_draw _ x y n
  case seReg x y | sneReg x y | ldReg x y | orReg x y | andReg x y | xorReg x y | addReg x y
    | sub x y | shr x y | subn x y | shl x y => exact Laws.WellFormedRow.matches_xyn _ x y _
  all_goals exact Laws.WellFormedRow.matches_low _ _ _

/-- A word that matches the row of an instruction decodes to an instruction of that row: the fields
that the row fixes are the ones `decode` selects by. -/
theorem decode_row_of_matches_row (ins : Instr) (h : ins.row.matchesWord w = true) :
    (decode w).map Instr.row = .ok ins.row := by
  cases ins
  case cls | ret =>
    rw [eq_of_matches_whole h]
    rfl
  case jp | call | seImm | sneImm | ldImm | addImm | ldI | jpV0 | rnd | drw =>
    unfold decode
    rw [fieldA_of_matches h]
    rfl
  case seReg | sneReg | ldReg | orReg | andReg | xorReg | addReg | sub | shr | subn | shl =>
    obtain ⟨ha, hn⟩ := fields_of_matches_xyn h
    unfold decode decodeAlu
    rw [ha, hn]
    rfl
  all_goals
    obtain ⟨ha, hkk⟩ := fields_of_matches_low h
    unfold decode decodeKey decodeMisc
    rw [ha, hkk]
    rfl

theorem exists_decode_of_row {r : OpcodeRow} (h : (decode w).map Instr.row = .ok r) :
    ∃ ins, decode w = .ok ins ∧ ins.row = r := by
  cases hd : decode w with
  | ok ins => exact ⟨ins, rfl, Except.ok.inj (hd ▸ h)⟩
  | error e => cases hd ▸ h

/-- Every row of the opcode map is the row of an instruction: the one its fixed bits decode to. -/
theorem exists_row_eq {r : OpcodeRow} (hr : r ∈ opcodeMap) : ∃ ins : Instr, ins.row = r := by
  have rows : ∀ r ∈ opcodeMap, (decode r.bits).map Instr.row = .ok r := by decide
  obtain ⟨ins, -, h⟩ := exists_decode_of_row (rows r hr)
  exact ⟨ins, h⟩

/-- A word that matches a row of the opcode map decodes to an instruction of that row (R73, R75). -/
theorem decode_row_of_matchesWord {r : OpcodeRow} (hr : r ∈ opcodeMap)
    (h : r.matchesWord w = true) : (decode w).map Instr.row = .ok r := by
  obtain ⟨ins, rfl⟩ := exists_row_eq hr
  exact decode_row_of_matches_row ins h

theorem legalWord_iff : legalWord w = true ↔ ∃ r ∈ opcodeMap, r.matchesWord w = true :=
  List.any_eq_true

/-- A word that decodes is legal: it is the encoding of an instruction, so it matches that row. -/
theorem legalWord_of_decode {ins : Instr} (h : decode w = .ok ins) : legalWord w = true := by
  rw [legalWord_iff, ← encodeOfDecodeIsTheWord w ins h]
  exact ⟨ins.row, Laws.WellFormedRow.row_mem ins, row_matches_encode ins⟩

/-- Settles O4: a word that decodes is legal, and a word that matches a row decodes to that row. -/
theorem illegalWordsAreThoseThatMatchNoRow : Obligations.IllegalWordsAreThoseThatMatchNoRow := by
  intro w
  constructor
  · intro illegal
    cases hd : decode w with
    | ok ins => exact absurd (legalWord_of_decode hd) (Bool.eq_false_iff.mp illegal)
    | error e => rw [decode_error_eq hd]
  · intro legal
    obtain ⟨r, hr, hw⟩ := legalWord_iff.mp legal
    obtain ⟨ins, hd, rfl⟩ := exists_decode_of_row (decode_row_of_matchesWord hr hw)
    exact ⟨ins, hd, hw⟩

/-- Settles O5: both rows are the row of the one answer that `decode` gives for the word. -/
theorem opcodeRowsNeverOverlap : Obligations.OpcodeRowsNeverOverlap :=
  fun _ _ _ hr hr' hw hw' =>
    Except.ok.inj ((decode_row_of_matchesWord hr hw).symm.trans (decode_row_of_matchesWord hr' hw'))

end Sys2Proof
end

section
/-! PROOFS. Control flow: jumps, skips, calls and returns, and nests of calls (R100 to R107). -/

namespace Sys2Proof.Machine

/-! ## The state after a skip, a call, a return and a fault -/

theorem skipIf_beq_pc (a b : Byte) (s : State) :
    (s.skipIf (a == b)).pc = if a = b then s.pc + 2 else s.pc := by
  rw [State.skipIf_pc]
  exact if_congr beq_iff_eq rfl rfl

theorem skipIf_bne_pc (a b : Byte) (s : State) :
    (s.skipIf (a != b)).pc = if a = b then s.pc else s.pc + 2 := by
  rw [State.skipIf_pc, if_congr bne_iff_ne rfl rfl, ite_not]

theorem pushCall_sp {s : State} (target : Addr) (room : s.sp.val < 12) :
    (s.pushCall target).sp.val = s.sp.val + 1 := by
  rw [State.pushCall_below s target room]

theorem pushCall_stack {s : State} (target : Addr) (room : s.sp.val < 12) (k : Fin 16) :
    (s.pushCall target).stack[k] = if k.val = s.sp.val then s.pc else s.stack[k] := by
  rw [State.pushCall_below s target room, Fin.getElem_fin, Vector.getElem_set]
  exact if_congr eq_comm rfl rfl

theorem popReturn_sp {s : State} {depth : Nat} (h : s.sp.val = depth + 1) :
    s.popReturn.sp.val = depth := by
  rw [State.popReturn_entry s (by omega)]
  exact congrArg (· - 1) h

theorem popReturn_stack {s : State} (entry : s.sp.val ≠ 0) : s.popReturn.stack = s.stack := by
  rw [State.popReturn_entry s entry]

/-- The fault of R220's table, taken as R221 says. -/
theorem exec_raises_of_instrFault {ins : Instr} {s : State} {f : Fault}
    (h : instrFault ins s = some f) : ∃ t, exec ins s = .next t ∧ Raises f s t :=
  ⟨s.raise f, exec_of_instrFault h, rfl, rfl, raise_frame f s⟩

/-- A part that reads the same after all need not be named in a frame. -/
theorem Frame.of_same {p : Part} {parts : List Part} {s t : State} (h : Frame (p :: parts) s t)
    (same : p.same s t) : Frame parts s t := by
  refine ⟨fun q hq => ?_, h.2⟩
  by_cases hqp : q = p
  · exact hqp ▸ same
  · exact h.1 q (List.not_mem_cons_of_ne_of_not_mem hqp hq)

/-! ## Lists of instructions -/

theorem execAll_cons_of_next {ins : Instr} {rest : List Instr} {s t : State}
    (h : exec ins s = .next t) : execAll (ins :: rest) s = execAll rest t := by
  rw [execAll, h]

theorem execAll_append_of_next {first second : List Instr} {s t : State}
    (h : execAll first s = .next t) : execAll (first ++ second) s = execAll second t := by
  induction first generalizing s with
  | nil =>
    cases h
    rfl
  | cons ins rest ih =>
    cases hx : exec ins s with
    | next u =>
      rw [execAll_cons_of_next hx] at h
      rw [List.cons_append, execAll_cons_of_next hx, ih h]
    | fault | refused =>
      rw [execAll, hx] at h
      cases h

/-- Calls that fit the depth limit are all taken, and change only pc and the stack (R101). -/
theorem execAll_calls (targets : List Addr) (s : State) (fits : s.sp.val + targets.length ≤ 12) :
    ∃ t, execAll (targets.map .call) s = .next t ∧ t.sp.val = s.sp.val + targets.length ∧
      Frame [.pc, .stack] s t := by
  induction targets generalizing s with
  | nil => exact ⟨s, rfl, rfl, Frame.refl _ s⟩
  | cons target rest ih =>
    rw [List.length_cons] at fits ⊢
    have room : s.sp.val < 12 := by omega
    have depth := pushCall_sp target room
    obtain ⟨t, run, sp, frame⟩ := ih (s.pushCall target) (by omega)
    exact ⟨t, run, by omega, (pushCall_frame target room).trans frame⟩

/-! ## Nests of calls -/

/-- Settles O14, by induction on the nest: the outermost call leaves `s.liveStack ++ [s.pc]`, the inner
nest restores that, and so the last return pops `s.pc`. -/
theorem nestedCallsReturnInOrder : Obligations.NestedCallsReturnInOrder := by
  intro targets
  induction targets with
  | nil => exact fun s _ => ⟨s, rfl, rfl, rfl, Frame.refl _ s⟩
  | cons target rest ih =>
    intro s fits
    rw [List.length_cons] at fits
    have room : s.sp.val < 12 := by omega
    obtain ⟨t, inner, -, live, frame⟩ :=
      ih (s.pushCall target) (by rw [pushCall_sp target room]; omega)
    rw [State.pushCall_liveStack s target room] at live
    obtain ⟨popped_pc, popped_live, -⟩ := State.popReturn_of_liveStack t _ _ live
    have depth : t.sp.val = s.liveStack.length + 1 := by
      rw [← State.liveStack_length, live, List.length_append, List.length_singleton]
    have whole : Frame [.pc, .stack] s t.popReturn :=
      ((pushCall_frame target room).trans (frame.mono fun _ => List.mem_cons_of_mem _)).trans
        (popReturn_frame (by omega))
    refine ⟨t.popReturn, ?_, popped_pc, popped_live, whole.of_same popped_pc⟩
    rw [List.length_cons, List.replicate_succ', ← List.append_assoc]
    exact execAll_append_of_next (first := .call target :: _) inner

/-- Settles O15: the twelve calls fit, and the next one meets a full stack. -/
theorem twelveCallsSucceedTheNextOverflows : Obligations.TwelveCallsSucceedTheNextOverflows := by
  intro targets next s empty running twelve
  obtain ⟨t, run, sp, frame⟩ := execAll_calls targets s (by omega)
  have full : t.sp.val = 12 := by omega
  have kept : t.status = s.status := frame.1 .status (by decide)
  exact ⟨t, run, kept.trans running, full, _, exec_of_instrFault (if_pos full), rfl, rfl⟩

/-! ## One jump, skip, call or return -/

/-- Settles O10: the pc law of O54, with the frame of a write to pc. -/
theorem jumps : Obligations.Jumps := fun nnn s =>
  ⟨⟨decodeOfEncodeIsTheInstruction (.jp nnn), _, rfl, programCounterLaw (.jp nnn) s _ rfl,
      (Update.setPc _).frame⟩,
    decodeOfEncodeIsTheInstruction (.jpV0 nnn), _, rfl, programCounterLaw (.jpV0 nnn) s _ rfl,
      (Update.setPc _).frame⟩

/-- Settles O11: each test is an equality or its negation, and a skip changes only pc. -/
theorem conditionalSkips : Obligations.ConditionalSkips := fun x y kk s =>
  ⟨⟨decodeOfEncodeIsTheInstruction (.seImm x kk), _, rfl, (Update.skipIf _).frame,
      skipIf_beq_pc _ _ s⟩,
    ⟨decodeOfEncodeIsTheInstruction (.sneImm x kk), _, rfl, (Update.skipIf _).frame,
      skipIf_bne_pc _ _ s⟩,
    ⟨decodeOfEncodeIsTheInstruction (.seReg x y), _, rfl, (Update.skipIf _).frame,
      skipIf_beq_pc _ _ s⟩,
    decodeOfEncodeIsTheInstruction (.sneReg x y), _, rfl, (Update.skipIf _).frame,
      skipIf_bne_pc _ _ s⟩

/-- Settles O12: below the limit CALL is a push, at the limit R220's table assigns it StackOverflow. -/
theorem callPushesOrOverflows : Obligations.CallPushesOrOverflows := fun nnn s =>
  ⟨decodeOfEncodeIsTheInstruction (.call nnn),
    fun room => ⟨s.pushCall nnn, rfl, pushCall_pc nnn room, pushCall_sp nnn room,
      pushCall_stack nnn room, pushCall_frame nnn room⟩,
    fun full => exec_raises_of_instrFault (if_pos full)⟩

/-- Settles O13: with an entry RET is a pop, on an empty stack R220's table assigns it
StackUnderflow. -/
theorem returnPopsOrUnderflows : Obligations.ReturnPopsOrUnderflows := by
  refine fun s => ⟨decodeOfEncodeIsTheInstruction .ret, fun top depth => ?_,
    fun empty => exec_raises_of_instrFault (if_pos empty)⟩
  have entry : s.sp.val ≠ 0 := by omega
  exact ⟨s.popReturn, rfl, popReturn_pc top depth, popReturn_sp depth,
    fun k => by rw [popReturn_stack entry], popReturn_frame entry⟩

end Sys2Proof.Machine
end

section
/-! PROOFS. Register loads and the ALU: the result, the flag and the frame (R120 to R131). -/

namespace Sys2Proof.Machine

/-! ## Writing one register, or a result and its flag -/

theorem getV_setV_self (s : State) (x : RegIx) (b : Byte) : (s.setV x b).getV x = b :=
  (State.getV_setV ..).trans (if_pos rfl)

theorem setV_onlyV (s : State) (x : RegIx) (b : Byte) : OnlyV x s (s.setV x b) :=
  ⟨fun _ hj => (State.getV_setV ..).trans (if_neg hj), (Update.setV x b).frame⟩

/-- The flag is written last, so it is what VF holds, with x = 15 too (R126). -/
theorem getV_setResultFlag_vf (s : State) (x : RegIx) (rf : Byte × Byte) :
    (s.setResultFlag x rf).getV 15 = rf.2 :=
  (State.getV_setResultFlag ..).trans (if_pos rfl)

/-- Vx holds the operation's result, unless Vx is VF (R126). -/
theorem getV_setResultFlag_result_toNat (s : State) {x : RegIx} {rf : Byte × Byte} {n : Nat}
    (hn : rf.1.toNat = n) (hx : x ≠ 15) : ((s.setResultFlag x rf).getV x).toNat = n := by
  rw [State.getV_setResultFlag, if_neg hx, if_pos rfl, hn]

theorem setResultFlag_onlyVAndFlag (s : State) (x : RegIx) (rf : Byte × Byte) :
    OnlyVAndFlag x s (s.setResultFlag x rf) :=
  ⟨fun _ notResult notFlag =>
      (State.getV_setResultFlag ..).trans ((if_neg notFlag).trans (if_neg notResult)),
    (Update.setResultFlag x rf).frame⟩

/-! ## The results and flags as numbers -/

theorem flag_decide (p : Prop) [Decidable p] : flag (decide p) = if p then 1 else 0 :=
  if_congr decide_eq_true_iff rfl rfl

/-- The difference modulo 256 (R128). -/
theorem subWithFlag_result_toNat (a b : Byte) :
    (subWithFlag a b).1.toNat = (a.toNat + 256 - b.toNat) % 256 := by
  have hb := b.isLt
  have difference : (subWithFlag a b).1.toNat = (256 - b.toNat + a.toNat) % 256 :=
    BitVec.toNat_sub a b
  omega

theorem shiftRight_result_toNat (a : Byte) : (shiftRight a).1.toNat = a.toNat / 2 :=
  Nat.shiftRight_eq_div_pow a.toNat 1

/-- SHR shifts out the lowest bit (R129). -/
theorem shiftRight_flag_toNat (a : Byte) : (shiftRight a).2.toNat = a.toNat % 2 :=
  Nat.and_one_is_mod a.toNat

/-- The mask with 0xFF keeps the whole byte (R131). -/
theorem shiftLeft_result_toNat (a : Byte) : (shiftLeft a).1.toNat = 2 * a.toNat % 256 := by
  have unmasked : (shiftLeft a).1 = a <<< 1 := BitVec.and_allOnes
  rw [unmasked, BitVec.toNat_shiftLeft, Nat.shiftLeft_eq, Nat.mul_comm]

/-- SHL shifts out the highest bit (R131). -/
theorem shiftLeft_flag_toNat (a : Byte) : (shiftLeft a).2.toNat = a.toNat / 128 := by
  have ha := a.isLt
  calc (a.toNat &&& 128) >>> 7
      = a.toNat >>> 7 &&& 1 := Nat.shiftRight_and_distrib
    _ = a.toNat / 128 % 2 := by rw [Nat.and_one_is_mod, Nat.shiftRight_eq_div_pow]
    _ = a.toNat / 128 := by omega

/-! ## The instructions -/

/-- Settles O6: each is one write of Vx, and a sum of bytes is taken modulo 256. -/
theorem loadsAndImmediateAdd : Obligations.LoadsAndImmediateAdd := fun x y kk s =>
  ⟨⟨decodeOfEncodeIsTheInstruction (.ldImm x kk), _, rfl, getV_setV_self s x _, setV_onlyV s x _⟩,
    ⟨decodeOfEncodeIsTheInstruction (.addImm x kk), _, rfl,
      (congrArg BitVec.toNat (getV_setV_self s x _)).trans (BitVec.toNat_add _ _),
      setV_onlyV s x _⟩,
    decodeOfEncodeIsTheInstruction (.ldReg x y), _, rfl, getV_setV_self s x _, setV_onlyV s x _⟩

/-- Settles O7: each is one write of Vx, whose bits are those of the operation on bytes. -/
theorem bitwiseOperations : Obligations.BitwiseOperations := by
  refine fun x y s =>
    ⟨⟨decodeOfEncodeIsTheInstruction (.orReg x y), _, rfl, setV_onlyV s x _, fun b _ => ?_⟩,
      ⟨decodeOfEncodeIsTheInstruction (.andReg x y), _, rfl, setV_onlyV s x _, fun b _ => ?_⟩,
      decodeOfEncodeIsTheInstruction (.xorReg x y), _, rfl, setV_onlyV s x _, fun b _ => ?_⟩
  · rw [getV_setV_self, BitVec.getLsbD_or]
  · rw [getV_setV_self, BitVec.getLsbD_and]
  · rw [getV_setV_self, BitVec.getLsbD_xor]

/-- Settles O8: the flag is a comparison of the operands, the result their sum or difference modulo
256; SUBN is SUB with the operands exchanged. -/
theorem addAndSubtractWithFlag : Obligations.AddAndSubtractWithFlag := fun x y s =>
  ⟨⟨decodeOfEncodeIsTheInstruction (.addReg x y), _, rfl, setResultFlag_onlyVAndFlag s x _,
      (getV_setResultFlag_vf s x _).trans (flag_decide _),
      getV_setResultFlag_result_toNat s (BitVec.toNat_add _ _)⟩,
    ⟨decodeOfEncodeIsTheInstruction (.sub x y), _, rfl, setResultFlag_onlyVAndFlag s x _,
      (getV_setResultFlag_vf s x _).trans (flag_decide _),
      getV_setResultFlag_result_toNat s (subWithFlag_result_toNat _ _)⟩,
    decodeOfEncodeIsTheInstruction (.subn x y), _, rfl, setResultFlag_onlyVAndFlag s x _,
      (getV_setResultFlag_vf s x _).trans (flag_decide _),
      getV_setResultFlag_result_toNat s (subWithFlag_result_toNat _ _)⟩

/-- Settles O9: result and flag are computed from Vx alone, so every y gives the same next state. -/
theorem shiftsByOneBit : Obligations.ShiftsByOneBit := fun x y _ s =>
  ⟨⟨decodeOfEncodeIsTheInstruction (.shr x y), _, rfl, rfl, setResultFlag_onlyVAndFlag s x _,
      (congrArg BitVec.toNat (getV_setResultFlag_vf s x _)).trans (shiftRight_flag_toNat _),
      getV_setResultFlag_result_toNat s (shiftRight_result_toNat _)⟩,
    decodeOfEncodeIsTheInstruction (.shl x y), _, rfl, rfl, setResultFlag_onlyVAndFlag s x _,
      (congrArg BitVec.toNat (getV_setResultFlag_vf s x _)).trans (shiftLeft_flag_toNat _),
      getV_setResultFlag_result_toNat s (shiftLeft_result_toNat _)⟩

end Sys2Proof.Machine
end

section
/-! PROOFS. The address register and the memory blocks: the new I, the bytes stored, the registers
loaded, and the fault past 0xFFF (R150 to R155). -/

namespace Sys2Proof.Machine

/-! ## The address register -/

/-- The sum with I modulo 2^16 (R151). -/
theorem add_zext16_toNat (i : Word) (v : Byte) :
    (i + zext16 v).toNat = (i.toNat + v.toNat) % 65536 := by
  rw [BitVec.toNat_add, zext16_toNat (by decide)]

/-- The glyph of a digit starts at five times the digit (R155, R251). -/
theorem glyphAddr_toNat (v : Byte) : (glyphAddr v).toNat = v.toNat % 16 * 5 := by
  have digit : (zext16 (v &&& 0x0F)).toNat = v.toNat % 16 :=
    (zext16_toNat (by decide) _).trans (Nat.and_two_pow_sub_one_eq_mod v.toNat 4)
  have product : (glyphAddr v).toNat = (zext16 (v &&& 0x0F)).toNat * 5 % 65536 :=
    BitVec.toNat_mul _ _
  omega

/-- Settles O16: each is one write of I, whose value is a zero-extended address, a sum modulo 2^16
or a glyph's address. -/
theorem addressRegisterWrites : Obligations.AddressRegisterWrites := fun x nnn s =>
  ⟨⟨decodeOfEncodeIsTheInstruction (.ldI nnn), _, rfl, zext16_toNat (by decide) nnn,
      (Update.setI _).frame⟩,
    ⟨decodeOfEncodeIsTheInstruction (.addI x), _, rfl, add_zext16_toNat s.i (s.getV x),
      (Update.setI _).frame⟩,
    decodeOfEncodeIsTheInstruction (.ldF x), _, rfl, glyphAddr_toNat (s.getV x),
      (Update.setI _).frame⟩

/-! ## The fault past 0xFFF -/

/-- An access from I to `last` that R220's table faults is raised with the lowest address past
0xFFF, and does nothing else (R55, R221). -/
theorem exec_raises_lowestOutOfRange {ins : Instr} {s : State} {last : Nat}
    (nonempty : s.i.toNat ≤ last) (past : 0xFFF < last)
    (fault : instrFault ins s = some (.addressOutOfRange (s.pc - 2) (max s.i.toNat 4096))) :
    ∃ t addr, exec ins s = .next t ∧ LowestOutOfRange s.i.toNat last addr ∧
      Raises (.addressOutOfRange (s.pc - 2) addr) s t := by
  obtain ⟨t, run, raised⟩ := exec_raises_of_instrFault fault
  exact ⟨t, _, run, lowestOutOfRange_max nonempty past, raised⟩

/-! ## The block store and the block load -/

/-- The block store puts register k at I + k (R152). -/
theorem peek_pokes_block_at (s : State) {x k : RegIx} (hk : k ≤ x) :
    (s.pokes s.i.toNat (s.block x)).peek (s.i.toNat + k.val) = s.getV k := by
  have within : k.val ≤ x.val := hk
  rw [peek_pokes_block, if_pos (by omega), Nat.add_sub_cancel_left]
  exact congrArg s.getV (Fin.ofNat_val_eq_self k)

/-- Settles O17: inside memory the store is a poke of the block, past 0xFFF R220's table assigns it
AddressOutOfRange. -/
theorem blockStore : Obligations.BlockStore := fun x s =>
  ⟨decodeOfEncodeIsTheInstruction (.storeRegs x),
    fun inside => ⟨_, exec_storeRegs_of_noFault (if_neg (Nat.not_lt.2 inside)),
      fun _ hk => peek_pokes_block_at s hk,
      fun a outside => (peek_pokes_block x s a).trans (if_neg (by omega)),
      pokes_frame _ _ s⟩,
    fun past => exec_raises_lowestOutOfRange (Nat.le_add_right ..) past (if_pos past)⟩

/-- Settles O18: inside memory the load is `State.loadBlock`, past 0xFFF R220's table assigns it
AddressOutOfRange. -/
theorem blockLoad : Obligations.BlockLoad := fun x s =>
  ⟨decodeOfEncodeIsTheInstruction (.loadRegs x),
    fun inside => ⟨_, exec_loadRegs_of_noFault (if_neg (Nat.not_lt.2 inside)),
      State.getV_loadBlock s x, (Update.loadBlock x).frame⟩,
    fun past => exec_raises_lowestOutOfRange (Nat.le_add_right ..) past (if_pos past)⟩

/-- Settles O20: the store leaves register k at I + k and keeps I, and the load reads it from
there. -/
theorem blockLoadInvertsBlockStore : Obligations.BlockLoadInvertsBlockStore := by
  intro x s t u inside store hmem hcfg hi
  obtain ⟨-, stores, -⟩ := blockStore x s
  obtain ⟨t', store', stored, -, frame⟩ := stores inside
  cases store.symm.trans store'
  have sameI : u.i = s.i := hi.trans (frame.1 .i (by decide))
  obtain ⟨-, loads, -⟩ := blockLoad x u
  obtain ⟨w, load, loaded, -⟩ := loads (sameI ▸ inside)
  refine ⟨w, load, fun k hk => ?_, fun k hk => (loaded k).trans (if_neg (not_le.2 hk))⟩
  calc w.getV k = u.peek (u.i.toNat + k.val) := (loaded k).trans (if_pos hk)
    _ = t.peek (s.i.toNat + k.val) := by rw [sameI, State.peek_congr t u hmem hcfg]
    _ = s.getV k := stored k hk

/-! ## The decimal store -/

/-- A decimal digit fits in a byte. -/
theorem decimalDigit_toNat {d : Nat} (hd : d < 10) : (BitVec.ofNat 8 d).toNat = d :=
  Nat.mod_eq_of_lt (by omega)

/-- Settles O19: inside memory the store is a poke of the three digits, past 0xFFF R220's table
assigns it AddressOutOfRange. -/
theorem decimalStore : Obligations.DecimalStore := by
  refine fun x s => ⟨decodeOfEncodeIsTheInstruction (.ldB x), fun inside => ?_,
    fun past => exec_raises_lowestOutOfRange (Nat.le_add_right ..) past (if_pos past)⟩
  have byte : (s.getV x).toNat < 256 := (s.getV x).isLt
  have peek := peek_pokes_bcdDigits (s.getV x) s.i.toNat s
  refine ⟨_, exec_ldB_of_noFault (if_neg (Nat.not_lt.2 inside)), ?_, ?_, ?_, fun a outside => ?_,
    pokes_frame _ _ s⟩
  · rw [peek, if_pos rfl, decimalDigit_toNat (by omega)]
  · rw [peek, if_neg (by omega), if_pos rfl, decimalDigit_toNat (by omega)]
  · rw [peek, if_neg (by omega), if_neg (by omega), if_pos rfl, decimalDigit_toNat (by omega)]
  · rw [peek, if_neg (by omega), if_neg (by omega), if_neg (by omega)]

end Sys2Proof.Machine
end

section
/-! PROOFS. Timers and the random byte: what a tick that is taken answers, the timer update, and the
instructions that read or write a timer or the random byte (R170 to R175). -/

namespace Sys2Proof.Machine

/-! ## What a tick answers -/

/-- A Running tick whose word decodes executes the instruction on the advanced view, and then updates
the timers (R229). -/
theorem tick_of_decode (b : Byte) {s : State} {ins : Instr} (running : s.status = .running)
    (inside : s.pc.toNat + 1 ≤ 0xFFF) (decoded : decode (wordAtPc s) = .ok ins) :
    tick b s = afterExecute (exec ins (executeView b s)) :=
  (tick_fetches b s running inside).trans (runWord_ok _ _ _ ins decoded)

/-- Everything a tick that is taken can answer: a fetch fault at the pc it started from, a decode
fault with pc advanced, or what Execute left, after the timer update (R225, R229). -/
theorem tick_next_cases {b : Byte} {s t : State} (h : tick b s = .next t) :
    s.status = .running ∧
      ((∃ f, t = (s.beginTick b).raise f) ∨ (∃ f, t = (executeView b s).raise f) ∨
        ∃ ins u, decode (wordAtPc s) = .ok ins ∧ exec ins (executeView b s) = .next u ∧
          t = u.endTick) := by
  cases running : s.status with
  | halted f => cases (tick_halted b s f running).symm.trans h
  | running =>
    refine ⟨rfl, ?_⟩
    by_cases inside : s.pc.toNat + 1 ≤ 0xFFF
    · cases decoded : decode (wordAtPc s) with
      | error e =>
        have faults := (tick_fetches b s running inside).trans (runWord_error _ _ _ e decoded)
        exact .inr (.inl ⟨_, Host.Outcome.next.inj (h.symm.trans faults)⟩)
      | ok ins =>
        have executes := tick_of_decode b running inside decoded
        obtain ⟨u, run, ended⟩ := afterExecute_next (executes.symm.trans h)
        exact .inr (.inr ⟨ins, u, rfl, run, ended⟩)
    · have faults := tick_fetchFails b s running (Nat.lt_of_not_le inside)
      exact .inl ⟨_, Host.Outcome.next.inj (h.symm.trans faults)⟩

/-- No instruction changes the status but by a fault (R220, R221). -/
theorem status_not_mem_mayChange (ins : Instr) : .status ∉ mayChange ins := by
  cases ins <;> simp [mayChange]

/-- An instruction leaves a Running state only by raising a fault (R221). -/
theorem exec_halts {ins : Instr} {s u : State} (running : s.status = .running)
    (run : exec ins s = .next u) (halted : u.status ≠ .running) : ∃ f, u = s.raise f := by
  cases hf : instrFault ins s with
  | some f => exact ⟨f, Host.Outcome.next.inj (run.symm.trans (exec_of_instrFault hf))⟩
  | none =>
    have kept : u.status = s.status :=
      (exec_update hf run).frame.1 .status (status_not_mem_mayChange ins)
    exact absurd (kept.trans running) halted

/-! ## The timer update -/

theorem endTick_dt_toNat {u : State} (running : u.status = .running) :
    u.endTick.dt.toNat = u.dt.toNat - 1 := by
  rw [State.endTick_dt, if_pos running, State.countDown_toNat]

theorem endTick_st_toNat {u : State} (running : u.status = .running) :
    u.endTick.st.toNat = u.st.toNat - 1 := by
  rw [State.endTick_st, if_pos running, State.countDown_toNat]

/-- A halted block's timers stand still (R170). -/
theorem endTick_of_halted {u : State} (halted : u.status ≠ .running) : u.endTick = u := by
  unfold State.endTick
  split
  · exact absurd ‹_› halted
  · rfl

/-- Only LD DT, Vx writes the delay timer (R27, R171). -/
theorem dt_mem_mayChange {ins : Instr} : .dt ∈ mayChange ins ↔ ∃ x, ins = .ldDtVx x := by
  cases ins <;> simp [mayChange]

/-- Only LD ST, Vx writes the sound timer (R27, R172). -/
theorem st_mem_mayChange {ins : Instr} : .st ∈ mayChange ins ↔ ∃ x, ins = .ldStVx x := by
  cases ins <;> simp [mayChange]

/-- An instruction other than LD DT, Vx keeps the delay timer, whether it completes or faults. -/
theorem exec_dt_of_ne_ldDtVx {ins : Instr} {s u : State} (other : ∀ x, ins ≠ .ldDtVx x)
    (run : exec ins s = .next u) : u.dt = s.dt :=
  exec_keeps_part (p := .dt) run (fun h => (dt_mem_mayChange.1 h).elim other) (by decide)

/-- An instruction other than LD ST, Vx keeps the sound timer, whether it completes or faults. -/
theorem exec_st_of_ne_ldStVx {ins : Instr} {s u : State} (other : ∀ x, ins ≠ .ldStVx x)
    (run : exec ins s = .next u) : u.st = s.st :=
  exec_keeps_part (p := .st) run (fun h => (st_mem_mayChange.1 h).elim other) (by decide)

/-- Settles O24: each fault of a tick leaves the timers of its start, and the update at the end of a
Running tick counts down what the instruction left. -/
theorem timersCountEveryTick : Obligations.TimersCountEveryTick := by
  intro b s t h
  obtain ⟨running, ⟨f, rfl⟩ | ⟨f, rfl⟩ | ⟨ins, u, decoded, run, rfl⟩⟩ := tick_next_cases h
  · exact ⟨fun _ => ⟨rfl, rfl⟩, nofun⟩
  · exact ⟨fun _ => ⟨rfl, rfl⟩, nofun⟩
  · rw [State.endTick_status]
    refine ⟨fun halted => ?_, fun completed => ⟨ins, decoded, ?_, ?_⟩⟩
    · obtain ⟨f, rfl⟩ := exec_halts (s := executeView b s) running run halted
      rw [endTick_of_halted halted]
      exact ⟨rfl, rfl⟩
    · rw [endTick_dt_toNat completed]
      split
      · cases run
        rfl
      · rename_i other
        rw [exec_dt_of_ne_ldDtVx other run]
        rfl
    · rw [endTick_st_toNat completed]
      split
      · cases run
        rfl
      · rename_i other
        rw [exec_st_of_ne_ldStVx other run]
        rfl

/-! ## The instructions -/

/-- Settles O22: each is one write, of a timer or of Vx, and the timer update counts the written
timer down. -/
theorem timerInstructions : Obligations.TimerInstructions := fun x s =>
  ⟨⟨decodeOfEncodeIsTheInstruction (.ldDtVx x), _, rfl, rfl, (Update.setDt _).frame,
      fun running => endTick_dt_toNat (u := s.setDt (s.getV x)) running⟩,
    ⟨decodeOfEncodeIsTheInstruction (.ldStVx x), _, rfl, rfl, (Update.setSt _).frame,
      fun running => endTick_st_toNat (u := s.setSt (s.getV x)) running⟩,
    decodeOfEncodeIsTheInstruction (.ldVxDt x), _, rfl, getV_setV_self s x _, setV_onlyV s x _⟩

/-- A Running tick that fetches RND Vx, kk ends with the masked byte written (R175, R176). -/
theorem tick_rnd (b : Byte) {x : RegIx} {kk : Byte} {s : State} (running : s.status = .running)
    (inside : s.pc.toNat + 1 ≤ 0xFFF) (decoded : decode (wordAtPc s) = .ok (.rnd x kk)) :
    tick b s = .next ((executeView b s).setV x (b &&& kk)).endTick :=
  tick_of_decode b running inside decoded

/-- Settles O23: RND is one write of Vx, which the timer update keeps. -/
theorem randomByteAndMask : Obligations.RandomByteAndMask := by
  intro x kk b s
  have decoded : decode (encodeKk 0xC x kk) = .ok (.rnd x kk) :=
    decodeOfEncodeIsTheInstruction (.rnd x kk)
  refine ⟨decoded, ⟨_, rfl, getV_setV_self s x _, setV_onlyV s x _⟩, fun running inside word =>
    ⟨_, tick_rnd b running inside ((congrArg decode word).trans decoded), ?_, ?_⟩⟩
  · exact (State.endTick_status _).trans running
  · exact (State.getV_congr _ _ (State.endTick_v _) x).trans (getV_setV_self _ x _)

end Sys2Proof.Machine
end

section
/-! PROOFS. What no instruction reads: the sound timer, and but for RND the random byte (R27, R174,
R176). -/

namespace Sys2Proof.Machine

section
/-! ## A change of the sound timer and the random byte commutes with every operation -/

/-- The state with its sound timer and its random byte replaced by functions of themselves. -/
def State.mapUnread (sound random : Byte → Byte) (s : State) : State :=
  { s with st := sound s.st, rnd := random s.rnd }

/-- The same change of the state during a blit. -/
def Blit.mapUnread (sound random : Byte → Byte) (b : Blit) : Blit :=
  ⟨b.s.mapUnread sound random, b.collided⟩

variable (sound random : Byte → Byte)

theorem skipIf_mapUnread (c : Bool) (s : State) :
    (s.mapUnread sound random).skipIf c = (s.skipIf c).mapUnread sound random := by
  cases c <;> rfl

theorem pushCall_mapUnread (target : Addr) (s : State) :
    (s.mapUnread sound random).pushCall target = (s.pushCall target).mapUnread sound random := by
  unfold State.pushCall
  rw [apply_dite (State.mapUnread sound random)]
  rfl

theorem popReturn_mapUnread (s : State) :
    (s.mapUnread sound random).popReturn = s.popReturn.mapUnread sound random := by
  unfold State.popReturn
  rw [apply_ite (State.mapUnread sound random)]
  rfl

theorem pokes_mapUnread (a : Nat) (bs : List Byte) (s : State) :
    (s.mapUnread sound random).pokes a bs = (s.pokes a bs).mapUnread sound random := rfl

theorem emit_mapUnread (e : Event) (s : State) :
    (s.mapUnread sound random).emit e = (s.emit e).mapUnread sound random := rfl

/-- The access check reads neither, so it commutes where the access does. -/
theorem accessing_mapUnread {base n : Nat} {act act' : State → State} {s : State}
    (h : act' (s.mapUnread sound random) = (act s).mapUnread sound random) :
    accessing base n act' (s.mapUnread sound random) =
      (accessing base n act s).mapUnread sound random := by
  unfold accessing
  split
  · rfl
  · exact h

theorem blitRow_mapUnread (X Y : Byte) (base r : Nat) (b : Blit) :
    blitRow X Y base r (b.mapUnread sound random) =
      (blitRow X Y base r b).mapUnread sound random := by
  unfold blitRow
  dsimp only
  split <;> rfl

theorem blitRows_mapUnread (X Y : Byte) (base r n : Nat) (b : Blit) :
    blitRows X Y base r n (b.mapUnread sound random) =
      (blitRows X Y base r n b).mapUnread sound random := by
  induction n generalizing r b with
  | zero => rfl
  | succ n ih => rw [blitRows, blitRow_mapUnread, ih, blitRows]

theorem drawAndFlag_mapUnread (X Y : Byte) (base n : Nat) (s : State) :
    drawAndFlag X Y base n (s.mapUnread sound random) =
      (drawAndFlag X Y base n s).mapUnread sound random := by
  have drawn : drawSprite X Y base n (s.mapUnread sound random) =
      (drawSprite X Y base n s).mapUnread sound random :=
    blitRows_mapUnread sound random X Y base 0 n ⟨s, false⟩
  rw [drawAndFlag, drawn]
  rfl

end

/-! ## The instructions -/

theorem execCls_mapUnread (sound random : Byte → Byte) {s t : State} (run : execCls s = .next t) :
    execCls (s.mapUnread sound random) = .next (t.mapUnread sound random) := by
  rw [execCls_next run, ← emit_mapUnread, ← pokes_mapUnread]
  rfl

theorem execLdVxK_mapUnread (sound random : Byte → Byte) {x : RegIx} {s t : State}
    (run : execLdVxK x s = .next t) :
    execLdVxK x (s.mapUnread sound random) = .next (t.mapUnread sound random) := by
  cases hk : s.pressedKeyValue with
  | none =>
    cases (execLdVxK_released x hk).symm.trans run
    exact execLdVxK_released x (s := s.mapUnread sound random) hk
  | some b =>
    cases (execLdVxK_pressed x hk).symm.trans run
    exact execLdVxK_pressed x (s := s.mapUnread sound random) hk

/-- Execute commutes with a change of the sound timer and the random byte, so it reads neither. RND,
which reads the random byte, needs that one unchanged, and LD ST, Vx, which writes the sound timer,
needs that one unchanged. -/
theorem exec_mapUnread {sound random : Byte → Byte} {ins : Instr} {s t : State}
    (ifRnd : ∀ x kk, ins = .rnd x kk → random = id) (ifLdSt : ∀ x, ins = .ldStVx x → sound = id)
    (run : exec ins s = .next t) :
    exec ins (s.mapUnread sound random) = .next (t.mapUnread sound random) := by
  cases ins
  case cls => exact execCls_mapUnread sound random run
  case ldVxK => exact execLdVxK_mapUnread sound random run
  all_goals cases run
  case ldImm | addImm | ldReg | orReg | andReg | xorReg | ldVxDt | addReg | sub | shr | subn | shl
      | ldI | addI | ldF | jp | jpV0 | ldDtVx => rfl
  case rnd x kk => rw [ifRnd x kk rfl]; rfl
  case ldStVx x => rw [ifLdSt x rfl]; rfl
  case seImm | sneImm | seReg | sneReg | skp | sknp =>
    exact congrArg Host.Outcome.next (skipIf_mapUnread sound random _ s)
  case call nnn => exact congrArg Host.Outcome.next (pushCall_mapUnread sound random nnn s)
  case ret => exact congrArg Host.Outcome.next (popReturn_mapUnread sound random s)
  case ldB | storeRegs =>
    exact congrArg Host.Outcome.next
      (accessing_mapUnread sound random (pokes_mapUnread sound random _ _ s))
  case loadRegs x => exact congrArg Host.Outcome.next (accessing_mapUnread sound random rfl)
  case drw =>
    exact congrArg Host.Outcome.next
      (accessing_mapUnread sound random (drawAndFlag_mapUnread sound random _ _ _ _ s))

/-- Settles O55: replacing one of the two and keeping the other is a change Execute commutes with. -/
theorem onlyRndReadsTheRandomByte : Obligations.OnlyRndReadsTheRandomByte := fun _ _ _ b run =>
  ⟨fun notRnd => exec_mapUnread (sound := id) (random := fun _ => b)
      (fun x kk isRnd => absurd isRnd (notRnd x kk)) (fun _ _ => rfl) run,
    fun notLdSt => exec_mapUnread (sound := fun _ => b) (random := id)
      (fun _ _ _ => rfl) (fun x isLdSt => absurd isLdSt (notLdSt x)) run⟩

end Sys2Proof.Machine
end

section
/-! PROOFS. The keyboard: the skips and the wait, the host's moves on the latch, who else can change
it, and any number of waiting ticks (R180 to R189, R252, R257). -/

namespace Sys2Proof.Machine

/-! ## The instructions that read the latch -/

/-- Settles O26: each is a skip, and its test is the latch's comparison or the negation of it. -/
theorem keySkips : Obligations.KeySkips := by
  intro x s
  have skp := skipIf_pc_iff s (isKeyValuePressed_iff s (s.getV x))
  have sknp := skipIf_pc_iff s (not_isKeyValuePressed_iff s (s.getV x))
  exact ⟨⟨decodeOfEncodeIsTheInstruction (.skp x), _, rfl, (Update.skipIf _).frame, skp⟩,
    decodeOfEncodeIsTheInstruction (.sknp x), _, rfl, (Update.skipIf _).frame,
      fun pressed => sknp.2 (not_not_intro pressed), sknp.1⟩

/-- Settles O27: without a key it is one write of pc, with one it is one write of Vx. -/
theorem waitForKey : Obligations.WaitForKey := fun x s =>
  ⟨decodeOfEncodeIsTheInstruction (.ldVxK x),
    fun released => ⟨s.rewind, execLdVxK_released x (pressedKeyValue_of_released released), rfl,
      (Update.setPc _).frame⟩,
    fun pressed => ⟨s.setV x s.keyValue, execLdVxK_pressed x (pressedKeyValue_of_pressed pressed),
      getV_setV_self s x _, setV_onlyV s x _⟩⟩

/-! ## The host's moves -/

theorem poke_frame (a : Nat) (b : Byte) (s : State) : Frame [.mem] s (s.poke a b) :=
  pokes_frame a [b] s

theorem peek_poke_self (s : State) (a : Nat) (b : Byte) : (s.poke a b).peek a = b :=
  (State.peek_poke ..).trans (if_pos rfl)

theorem peek_poke_of_ne (s : State) {a k : Nat} (b : Byte) (h : k ≠ a) :
    (s.poke a b).peek k = s.peek k :=
  (State.peek_poke ..).trans (if_neg h)

/-- The two bytes of the latch are two bytes (R7). -/
theorem keyPressedAddr_ne_keyValueAddr (c : Config) : c.keyPressedAddr ≠ c.keyValueAddr := by
  obtain ⟨-, -, -, apart, -, -⟩ := config_bounds c
  exact apart

/-- Settles O42: two writes of one byte each, at different addresses. -/
theorem pressKeySetsTheLatch : Obligations.PressKeySetsTheLatch := by
  intro v s key
  refine ⟨_, if_pos (Nat.lt_succ_of_le key), ?_, peek_poke_self .., fun a notFlag notValue => ?_,
    (poke_frame ..).trans (poke_frame ..)⟩
  · rw [peek_poke_of_ne _ _ (keyPressedAddr_ne_keyValueAddr s.cfg), peek_poke_self]
  · rw [peek_poke_of_ne _ _ notValue, peek_poke_of_ne _ _ notFlag]

/-- Settles O43: one write of one byte. -/
theorem releaseKeyClearsTheFlag : Obligations.ReleaseKeyClearsTheFlag := fun s =>
  ⟨_, rfl, peek_poke_self .., fun _ notFlag => peek_poke_of_ne s _ notFlag, poke_frame ..⟩

/-- Settles O45: each move's own check fails. -/
theorem movesTheHostDoesNotHaveAreRefused : Obligations.MovesTheHostDoesNotHaveAreRefused :=
  fun _ _ _ =>
    ⟨fun above => if_neg (Nat.not_lt_of_le above),
      fun tooLong => if_neg fun fits => Nat.not_le_of_lt tooLong (of_decide_eq_true fits)⟩

/-! ## Instructions and the latch -/

/-- No instruction changes the parameters of R6, whether it completes or faults. -/
theorem exec_cfg {ins : Instr} {s t : State} (run : exec ins s = .next t) : t.cfg = s.cfg := by
  cases hf : instrFault ins s with
  | none => exact (exec_update hf run).frame.2.1
  | some f =>
    cases (exec_of_instrFault hf).symm.trans run
    rfl

/-- All that CLS and DRW store to is the framebuffer, and only LD [I], Vx and LD B, Vx store
elsewhere (R56, R208). -/
theorem not_storesAt_of_outside_framebuffer {ins : Instr} {s : State} {a : Nat}
    (notStore : ∀ x, ins ≠ .storeRegs x ∧ ins ≠ .ldB x)
    (outside : a < s.cfg.fbBase ∨ s.cfg.fbBase + 256 ≤ a) : ¬storesAt ins s a := by
  cases ins
  case storeRegs x => exact absurd rfl (notStore x).1
  case ldB x => exact absurd rfl (notStore x).2
  case cls | drw =>
    rintro ⟨fromBase, belowEnd⟩
    omega
  all_goals exact id

/-- Settles O56: the latch lies outside the framebuffer (R7), and where it lies is a parameter. -/
theorem instructionsKeepTheKeypadLatch : Obligations.InstructionsKeepTheKeypadLatch := by
  intro ins s t notStore run
  obtain ⟨-, -, -, -, flagOutside, valueOutside⟩ := config_bounds s.cfg
  rw [exec_cfg run]
  exact ⟨memoryChangesOnlyWhereStored ins s t _ run
      (not_storesAt_of_outside_framebuffer notStore flagOutside),
    memoryChangesOnlyWhereStored ins s t _ run
      (not_storesAt_of_outside_framebuffer notStore valueOutside)⟩

/-! ## Waiting for a key -/

/-- The block is about to execute LD Vx, K, and no key is latched (R185). -/
structure WaitsForKey (x : RegIx) (s : State) : Prop where
  running : s.status = .running
  inside : s.pc.toNat + 1 ≤ 0xFFF
  word : wordAtPc s = encodeKk 0xF x 0x0A
  released : s.peek s.cfg.keyPressedAddr ≠ 0xFF

/-- What waiting ticks keep: the parameters and every part but the timers and the events. -/
structure KeptByWaiting (s t : State) : Prop where
  parts : ∀ p, p ∉ [.dt, .st, .events] → Part.same p s t
  cfg : t.cfg = s.cfg

namespace KeptByWaiting

variable {s t u : State}

theorem refl (s : State) : KeptByWaiting s s := ⟨fun p _ => p.same_refl s, rfl⟩

theorem trans (first : KeptByWaiting s t) (second : KeptByWaiting t u) : KeptByWaiting s u :=
  ⟨fun p hp => p.same_trans (first.parts p hp) (second.parts p hp), second.cfg.trans first.cfg⟩

variable (kept : KeptByWaiting s t)
include kept

theorem peek (a : Nat) : t.peek a = s.peek a := kept.parts .mem (by decide) a
theorem getV (j : RegIx) : t.getV j = s.getV j := kept.parts .v (by decide) j
theorem i : t.i = s.i := kept.parts .i (by decide)
theorem pc : t.pc = s.pc := kept.parts .pc (by decide)
theorem status : t.status = s.status := kept.parts .status (by decide)

end KeptByWaiting

/-- Waiting goes on in a state that differs in the timers and the events only. -/
theorem WaitsForKey.of_kept {x : RegIx} {s t : State} (waits : WaitsForKey x s)
    (kept : KeptByWaiting s t) : WaitsForKey x t where
  running := kept.status.trans waits.running
  inside := kept.pc ▸ waits.inside
  word := by
    unfold wordAtPc
    rw [kept.pc, kept.peek, kept.peek]
    exact waits.word
  released := by
    rw [kept.cfg, kept.peek]
    exact waits.released

/-- A waiting tick goes back to its instruction and updates the timers (R185, R170). -/
theorem tick_of_waitsForKey (b : Byte) {x : RegIx} {s : State} (waits : WaitsForKey x s) :
    tick b s = .next (executeView b s).rewind.endTick := by
  have decoded : decode (wordAtPc s) = .ok (.ldVxK x) :=
    (congrArg decode waits.word).trans (decodeOfEncodeIsTheInstruction (.ldVxK x))
  have released : (executeView b s).pressedKeyValue = none :=
    pressedKeyValue_of_released waits.released
  exact (tick_of_decode b waits.running waits.inside decoded).trans
    (congrArg afterExecute (execLdVxK_released x released))

/-- The rewind takes back the advance, so a waiting tick changes only the timers and the events. -/
theorem keptByWaiting_rewind_endTick (b : Byte) (s : State) :
    KeptByWaiting s (executeView b s).rewind.endTick := by
  have pc : (executeView b s).rewind.endTick.pc = s.pc :=
    (State.endTick_pc _).trans (BitVec.add_sub_cancel s.pc 2)
  refine ⟨fun p hp => ?_, State.endTick_cfg _⟩
  cases p
  case pc => exact pc
  case dt | st | events => simp at hp
  all_goals simp [Part.same, State.getV, executeView, State.peek]

/-- One step of the wait. -/
theorem step_of_waitsForKey {x : RegIx} {s : State} (waits : WaitsForKey x s) :
    ∃ u, step s = .next u ∧ KeptByWaiting s u ∧ u.dt.toNat = s.dt.toNat - 1 := by
  have counted : KeptByWaiting s { s with rndIndex := s.rndIndex + 1 } :=
    ⟨fun p _ => p.same_refl s, rfl⟩
  exact ⟨_, tick_of_waitsForKey (Config.randomByte s.rndIndex) (waits.of_kept counted),
    counted.trans (keptByWaiting_rewind_endTick _ _), endTick_dt_toNat waits.running⟩

/-- Any number of steps of the wait (R257). -/
theorem run_of_waitsForKey {x : RegIx} (k : Nat) {s : State} (waits : WaitsForKey x s) :
    ∃ t, Sys2Proof.core.run k s = .next t ∧ KeptByWaiting s t ∧ t.dt.toNat = s.dt.toNat - k := by
  induction k generalizing s with
  | zero => exact ⟨s, rfl, .refl s, rfl⟩
  | succ k ih =>
    obtain ⟨u, first, keptFirst, dtFirst⟩ := step_of_waitsForKey waits
    obtain ⟨t, rest, keptRest, dtRest⟩ := ih (waits.of_kept keptFirst)
    exact ⟨t, (run_succ s k u first).trans rest, keptFirst.trans keptRest, by omega⟩

/-- Settles O28, by induction on the number of steps: a waiting tick leaves a state that waits. -/
theorem waitingForAKeyGoesOnForEver : Obligations.WaitingForAKeyGoesOnForEver := by
  intro x k s running inside word released
  obtain ⟨t, run, kept, dt⟩ := run_of_waitsForKey k ⟨running, inside, word, released⟩
  exact ⟨t, ⟨run, kept.status.trans running⟩, kept.pc, kept.getV, kept.peek, kept.i, dt⟩

end Sys2Proof.Machine
end

section
/-! PROOFS. The display: pixels as bits of framebuffer bytes, the screen, the flag and the notifications
a draw leaves, the double draw, and the clear screen (R200 to R207). -/

namespace Sys2Proof.Machine

/-! ## Pixels and bytes -/

/-- Two bytes have a set bit in common exactly when their conjunction is not zero. -/
theorem and_ne_zero_iff (a b : Byte) :
    a &&& b ≠ 0 ↔ ∃ i < 8, a.getLsbD i = true ∧ b.getLsbD i = true := by
  constructor
  · intro nonzero
    by_contra disjoint
    push Not at disjoint
    refine nonzero (BitVec.eq_of_getLsbD_eq fun i hi => ?_)
    simpa using disjoint i hi
  · rintro ⟨i, -, ha, hb⟩ zero
    have bit := congrArg (·.getLsbD i) zero
    simp [ha, hb] at bit

/-- Settles O34: XOR differs from OR exactly when the conjunction is not zero. -/
theorem collisionIsAnOverlap : Obligations.CollisionIsAnOverlap := fun old v =>
  (collides_iff_and old v).trans (and_ne_zero_iff old v)

/-- Bit i of framebuffer byte k as a pixel (R31). -/
theorem pixel_of_bit (s : State) (k : Nat) {i : Nat} (hi : i < 8) :
    s.pixel (8 * (k % 8) + (7 - i)) (k / 8) = (s.peek (s.cfg.fbBase + k)).getLsbD i := by
  have byte : 8 * (k / 8) + (8 * (k % 8) + (7 - i)) / 8 = k := by omega
  have bit : 7 - (8 * (k % 8) + (7 - i)) % 8 = i := by omega
  rw [State.pixel, byte, bit]

/-- A pixel was turned off exactly when some framebuffer byte lost a bit. -/
theorem somePixelTurnedOff_iff {s t : State} (cfg : t.cfg = s.cfg) :
    SomePixelTurnedOff s t ↔
      ∃ k < 256, s.peek (s.cfg.fbBase + k) &&& ~~~t.peek (s.cfg.fbBase + k) ≠ 0 := by
  constructor
  · rintro ⟨px, py, hpx, hpy, lit, dark⟩
    refine ⟨8 * py + px / 8, by omega, (and_ne_zero_iff _ _).2 ⟨7 - px % 8, by omega, lit, ?_⟩⟩
    have bit : 7 - px % 8 < 8 := by omega
    rw [State.pixel, cfg] at dark
    rw [BitVec.getLsbD_not, dark]
    simp [bit]
  · rintro ⟨k, hk, lost⟩
    obtain ⟨i, hi, lit, dark⟩ := (and_ne_zero_iff _ _).1 lost
    refine ⟨8 * (k % 8) + (7 - i), k / 8, by omega, by omega, (pixel_of_bit s k hi).trans lit, ?_⟩
    rw [pixel_of_bit t k hi, cfg]
    simpa [hi] using dark

/-- Whether a pixel was turned off is seen from the pixels alone. -/
theorem somePixelTurnedOff_congr {s s' t t' : State}
    (before : ∀ px py, px < 64 → py < 32 → s'.pixel px py = s.pixel px py)
    (after : ∀ px py, px < 64 → py < 32 → t'.pixel px py = t.pixel px py) :
    SomePixelTurnedOff s' t' ↔ SomePixelTurnedOff s t := by
  refine exists_congr fun px => exists_congr fun py => and_congr_right fun hpx =>
    and_congr_right fun hpy => ?_
  rw [before px py hpx hpy, after px py hpx hpy]

/-! ## The draw -/

/-- DRW with its sprite inside memory is the draw (R203). -/
theorem exec_drw_next {x y : RegIx} {n : Nibble} {s t : State}
    (inside : n.toNat = 0 ∨ s.i.toNat + n.toNat ≤ 4096) (run : exec (.drw x y n) s = .next t) :
    t = drawAndFlag (s.getV x) (s.getV y) s.i.toNat n.toNat s :=
  Host.Outcome.next.inj (run.symm.trans (execDrw_inRange x y n s inside))

theorem toNat_eq_zero_of_eq_zero {n : Nibble} (h : n = 0) : n.toNat = 0 := congrArg BitVec.toNat h

theorem SpriteApart.inside {s : State} {n : Nat} (apart : SpriteApart s n) :
    n = 0 ∨ s.i.toNat + n ≤ 4096 :=
  apart.imp_right And.left

/-- No row of a sprite that lies apart is read from the framebuffer. -/
theorem SpriteApart.rows {s : State} {n : Nat} (apart : SpriteApart s n) (r : Nat) (hr : r < n) :
    s.i.toNat + r < s.cfg.fbBase ∨ s.cfg.fbBase + 256 ≤ s.i.toNat + r := by
  unfold SpriteApart at apart
  omega

/-- Where a sprite lies depends on I and the placement of the framebuffer alone. -/
theorem SpriteApart.congr {s t : State} {n : Nat} (apart : SpriteApart s n) (cfg : t.cfg = s.cfg)
    (i : t.i = s.i) : SpriteApart t n := by
  rw [SpriteApart, cfg, i]
  exact apart

/-- No draw changes a sprite that lies apart (R208). -/
theorem SpriteApart.drawAndFlag_peek {s : State} {n : Nat} (apart : SpriteApart s n) (X Y : Byte)
    (base h r : Nat) (hr : r < n) :
    (drawAndFlag X Y base h s).peek (s.i.toNat + r) = s.peek (s.i.toNat + r) := by
  have outside := apart.rows r hr
  exact drawAndFlag_peek_outside X Y base h s (by omega)

/-- VF is written after the blit and no pixel depends on it (R203). -/
theorem drawAndFlag_pixel (X Y : Byte) (base n : Nat) (s : State) (px py : Nat) :
    (drawAndFlag X Y base n s).pixel px py = (blitRows X Y base 0 n ⟨s, false⟩).s.pixel px py := rfl

/-- A draw collides exactly when it turns a pixel off (R204). -/
theorem drawSprite_collided_iff (X Y : Byte) (base : Nat) {n : Nat} (hn : n ≤ 32) (s : State) :
    (drawSprite X Y base n s).collided = true ↔
      SomePixelTurnedOff s (drawAndFlag X Y base n s) := by
  have noneYet : ¬(⟨s, false⟩ : Blit).collided = true := Bool.false_ne_true
  rw [somePixelTurnedOff_iff (drawAndFlag_frame X Y base n s).2.1]
  exact (blitRows_collided X Y base 0 n ⟨s, false⟩ hn).trans (or_iff_right noneYet)

theorem flag_eq_one_iff (c : Bool) : flag c = 1 ↔ c = true := by cases c <;> decide

/-- VF after a draw (R203, R204). -/
theorem drawAndFlag_vf_eq_one_iff (X Y : Byte) (base : Nat) {n : Nat} (hn : n ≤ 32) (s : State) :
    (drawAndFlag X Y base n s).getV 15 = 1 ↔ SomePixelTurnedOff s (drawAndFlag X Y base n s) := by
  rw [drawAndFlag_getV, if_pos rfl, flag_eq_one_iff, drawSprite_collided_iff X Y base hn]

theorem drawAndFlag_vf_zero_or_one (X Y : Byte) (base n : Nat) (s : State) :
    (drawAndFlag X Y base n s).getV 15 = 0 ∨ (drawAndFlag X Y base n s).getV 15 = 1 := by
  rw [drawAndFlag_getV, if_pos rfl]
  exact flag_zero_or_one _

theorem nibble_toNat_le_32 (n : Nibble) : n.toNat ≤ 32 := by
  have := n.isLt
  omega

/-- Settles O30: inside memory it is the draw, whose collision is a pixel turned off; past 0xFFF R220's
table assigns it AddressOutOfRange. -/
theorem drawSetsCollisionFlag : Obligations.DrawSetsCollisionFlag := by
  refine fun x y n s => ⟨decodeOfEncodeIsTheInstruction (.drw x y n), fun inside => ?_,
    fun rows past => ?_⟩
  · have vf := drawAndFlag_vf_eq_one_iff (s.getV x) (s.getV y) s.i.toNat (nibble_toNat_le_32 n) s
    refine ⟨_, execDrw_inRange x y n s (inside.imp_left toNat_eq_zero_of_eq_zero), vf.2,
      fun noneOff => ?_, fun j hj => (drawAndFlag_getV ..).trans (if_neg hj),
      fun a outside => drawAndFlag_peek_outside _ _ _ _ s (by omega), drawAndFlag_frame ..⟩
    exact (drawAndFlag_vf_zero_or_one ..).resolve_right fun one => noneOff (vf.1 one)
  · have last : 0xFFF < s.i.toNat + n.toNat - 1 := by omega
    have nonempty : n.toNat ≠ 0 := fun zero => rows (BitVec.eq_of_toNat_eq zero)
    exact exec_raises_lowestOutOfRange (by omega) last ((if_neg rows).trans (if_pos last))

/-! ## The screen after a draw -/

/-- A bit of any byte during a blit: a pixel where the byte is in the framebuffer, what memory held
before the blit elsewhere (R202, D16). -/
theorem blitRows_peek_bit (X Y : Byte) (base n : Nat) (s : State) (a : Nat) {c : Nat} (hc : c < 8) :
    ((blitRows X Y base 0 n ⟨s, false⟩).s.peek a).getLsbD (7 - c) =
      if s.cfg.fbBase ≤ a ∧ a - s.cfg.fbBase < 256 then
        (blitRows X Y base 0 n ⟨s, false⟩).s.pixel (8 * ((a - s.cfg.fbBase) % 8) + c)
          ((a - s.cfg.fbBase) / 8)
      else (s.peek a).getLsbD (7 - c) := by
  have keeps := blitRows_keeps X Y base 0 n ⟨s, false⟩
  have column : 7 - (7 - c) = c := by omega
  split
  · have address : s.cfg.fbBase + (a - s.cfg.fbBase) = a := by omega
    have bit := pixel_of_bit (blitRows X Y base 0 n ⟨s, false⟩).s (a - s.cfg.fbBase)
      (i := 7 - c) (by omega)
    rw [column, keeps.cfg, address] at bit
    exact bit.symm
  · rw [keeps.outside a (by dsimp only; omega)]

/-- The rows drawn one after another, by induction on how many were drawn. -/
theorem blitRows_pixel (X Y : Byte) (base n : Nat) (s : State) {px py : Nat} (hpx : px < 64)
    (hpy : py < 32) : (blitRows X Y base 0 n ⟨s, false⟩).s.pixel px py =
      screenAfterRows s X Y base n px py := by
  induction n generalizing px py with
  | zero => rfl
  | succ n ih =>
    rw [blitRows_last, blitRow_pixel X Y base _ _ px py hpx, Nat.zero_add, ih hpx hpy,
      screenAfterRows]
    by_cases hc : (px + 256 - X.toNat) % 64 < 8
    · rw [blitRows_peek_bit X Y base n s (base + n) hc]
      congr 2
      refine ite_congr rfl (fun inFramebuffer => ih ?_ ?_) fun _ => rfl <;> omega
    · simp [hc]

/-- Settles O57: the draw is a blit of its rows, and each pixel is what the rows leave there. -/
theorem drawReadsEachRowJustBeforeDrawingIt : Obligations.DrawReadsEachRowJustBeforeDrawingIt := by
  intro x y n s t inside run px py hpx hpy
  rw [exec_drw_next (inside.imp_left toNat_eq_zero_of_eq_zero) run, drawAndFlag_pixel]
  exact blitRows_pixel _ _ _ _ s hpx hpy

/-- The sprite of one row more covers what the row adds (R201). -/
theorem spriteCovers_succ (s : State) (X Y : Byte) (base : Nat) {n px py : Nat} (hn : n < 32)
    (hpy : py < 32) : spriteCovers s X Y base (n + 1) px py =
      (spriteCovers s X Y base n px py ^^ (decide ((Y.toNat + n) % 32 = py) &&
        decide ((px + 256 - X.toNat) % 64 < 8) &&
        (s.peek (base + n)).getLsbD (7 - (px + 256 - X.toNat) % 64))) := by
  have hY := Y.isLt
  unfold spriteCovers
  dsimp only
  by_cases line : (Y.toNat + n) % 32 = py
  · have row : (py + 256 - Y.toNat) % 32 = n := by omega
    simp [row, line]
  · have sameRows : (py + 256 - Y.toNat) % 32 < n + 1 ↔ (py + 256 - Y.toNat) % 32 < n := by omega
    simp [line, sameRows]

/-- Where the rows are not in the framebuffer, the sprite is XORed into the screen. -/
theorem screenAfterRows_apart (s : State) (X Y : Byte) (base : Nat) {n : Nat} (hn : n ≤ 32)
    (apart : ∀ r < n, base + r < s.cfg.fbBase ∨ s.cfg.fbBase + 256 ≤ base + r) {px py : Nat}
    (hpy : py < 32) : screenAfterRows s X Y base n px py =
      (s.pixel px py ^^ spriteCovers s X Y base n px py) := by
  induction n with
  | zero => simp [screenAfterRows, spriteCovers]
  | succ n ih =>
    have inMemory := apart n (Nat.lt_succ_self n)
    rw [spriteCovers_succ s X Y base hn hpy, ← Bool.xor_assoc,
      ← ih (by omega) fun r hr => apart r (by omega), screenAfterRows, if_neg (by omega)]

/-- Settles O31: a sprite apart from the framebuffer is read from memory, row by row. -/
theorem drawXorsTheSpriteWithWraparound : Obligations.DrawXorsTheSpriteWithWraparound := by
  intro x y n s t apart run px py hpx hpy
  rw [exec_drw_next apart.inside run, drawAndFlag_pixel, blitRows_pixel _ _ _ _ s hpx hpy]
  exact screenAfterRows_apart s _ _ _ (nibble_toNat_le_32 n) apart.rows hpy

/-! ## The double draw -/

/-- A sprite is known by its rows' bytes. -/
theorem spriteCovers_congr {s t : State} (X Y : Byte) (base : Nat) {n : Nat}
    (same : ∀ r < n, t.peek (base + r) = s.peek (base + r)) (px py : Nat) :
    spriteCovers t X Y base n px py = spriteCovers s X Y base n px py := by
  unfold spriteCovers
  dsimp only
  by_cases row : (py + 256 - Y.toNat) % 32 < n
  · rw [same _ row]
  · simp [row]

/-- States with the same framebuffer bytes have the same pixels. -/
theorem pixel_of_peeks {s t : State} (cfg : t.cfg = s.cfg)
    (same : ∀ k < 256, t.peek (s.cfg.fbBase + k) = s.peek (s.cfg.fbBase + k)) (px py : Nat)
    (hpx : px < 64) (hpy : py < 32) : t.pixel px py = s.pixel px py := by
  rw [State.pixel, cfg, same _ (by omega), State.pixel]

/-- Settles O32: the second draw XORs the same sprite into the screen the first left, so it turns off
what the first turned on. -/
theorem drawingTwiceRestoresTheScreen : Obligations.DrawingTwiceRestoresTheScreen := by
  intro x y x' y' n s t t' u apart first cfg' i' screen' sprite' vx' vy' second
  have drawn := drawXorsTheSpriteWithWraparound x y n s t apart first
  cases exec_drw_next apart.inside first
  have frame := drawAndFlag_frame (s.getV x) (s.getV y) s.i.toNat n.toNat s
  have firstI := frame.1 .i (by decide)
  have i : t'.i = s.i := i'.trans firstI
  have apart' : SpriteApart t' n.toNat := apart.congr (cfg'.trans frame.2.1) i
  have sprite (r : Nat) (hr : r < n.toNat) : t'.peek (s.i.toNat + r) = s.peek (s.i.toNat + r) :=
    (firstI ▸ sprite' r hr).trans (apart.drawAndFlag_peek _ _ _ _ r hr)
  have screen := pixel_of_peeks cfg' screen'
  have restored (px py : Nat) (hpx : px < 64) (hpy : py < 32) : u.pixel px py = s.pixel px py := by
    rw [drawXorsTheSpriteWithWraparound x' y' n t' u apart' second px py hpx hpy, vx', vy', i,
      spriteCovers_congr _ _ _ sprite, screen px py hpx hpy, drawn px py hpx hpy, Bool.xor_assoc,
      Bool.xor_self, Bool.xor_false]
  refine ⟨peek_of_pixels s u ((exec_cfg second).trans (cfg'.trans frame.2.1)) restored, ?_⟩
  rw [← somePixelTurnedOff_congr screen restored]
  cases exec_drw_next apart'.inside second
  exact drawAndFlag_vf_eq_one_iff _ _ _ (nibble_toNat_le_32 n) t'

/-! ## Notifications -/

/-- The framebuffer offsets one row updates, in order (R201, R202). -/
def rowOffsets (X Y : Byte) (r : Nat) : List Nat :=
  if X.toNat % 8 = 0 then [blitOff0 X Y r] else [blitOff0 X Y r, blitOff1 X Y r]

theorem blitOffsets_succ (X Y : Byte) (n : Nat) :
    blitOffsets X Y (n + 1) = blitOffsets X Y n ++ rowOffsets X Y n := by
  have rows (m : Nat) : blitOffsets X Y m = (List.range m).flatMap (rowOffsets X Y) := rfl
  rw [rows, rows, List.range_succ, List.flatMap_append, List.flatMap_singleton]

theorem row_of_mem_rowOffsets {X Y : Byte} {r k : Nat} (hk : k ∈ rowOffsets X Y r) :
    k / 8 = (Y.toNat + r) % 32 := by
  have either : k = blitOff0 X Y r ∨ k = blitOff1 X Y r := by
    unfold rowOffsets at hk
    split at hk
    · exact .inl (List.mem_singleton.1 hk)
    · simpa using hk
  rcases either with rfl | rfl
  · exact blitOff0_row X Y r
  · exact blitOff1_row X Y r

/-- The destination bytes of `n` rows lie on the screen rows of those rows. -/
theorem row_of_mem_blitOffsets {X Y : Byte} {n k : Nat} (hk : k ∈ blitOffsets X Y n) :
    ∃ r < n, k / 8 = (Y.toNat + r) % 32 := by
  obtain ⟨r, hr, hkr⟩ := List.mem_flatMap.1 hk
  exact ⟨r, List.mem_range.1 hr, row_of_mem_rowOffsets hkr⟩

/-- The notification of framebuffer byte k with the value it has in `s` (R205). -/
def updateOf (s : State) (k : Nat) : Event := .byteUpdated k (s.peek (s.cfg.fbBase + k))

/-- XorByte notifies the byte with the value it leaves there (R202). -/
theorem xorByte_events_updateOf (k : Nat) (v : Byte) (b : Blit) :
    (xorByte k v b).s.events = b.s.events ++ [updateOf (xorByte k v b).s k] := by
  have cfg : (xorByte k v b).s.cfg = b.s.cfg := rfl
  rw [xorByte_events, updateOf, cfg, xorByte_peek, if_pos rfl]

/-- XorByte keeps what is notified of the other bytes. -/
theorem updateOf_xorByte_of_ne {j k : Nat} (v : Byte) (b : Blit) (h : j ≠ k) :
    updateOf (xorByte k v b).s j = updateOf b.s j := by
  have cfg : (xorByte k v b).s.cfg = b.s.cfg := rfl
  rw [updateOf, cfg, xorByte_peek, if_neg h, updateOf]
  exact congrArg (Event.byteUpdated j) BitVec.xor_zero

/-- A row notifies its destination bytes with the values it leaves there (R202). -/
theorem blitRow_events (X Y : Byte) (base r : Nat) (b : Blit) :
    (blitRow X Y base r b).s.events =
      b.s.events ++ (rowOffsets X Y r).map (updateOf (blitRow X Y base r b).s) := by
  unfold blitRow rowOffsets
  dsimp only
  split
  · exact xorByte_events_updateOf _ _ b
  · rw [xorByte_events_updateOf, xorByte_events_updateOf, List.map_cons, List.map_singleton,
      updateOf_xorByte_of_ne _ _ (blitOff0_ne_off1 X Y r), List.append_assoc, List.singleton_append]

/-- A row keeps what is notified of the bytes of other screen rows. -/
theorem updateOf_blitRow_of_other (X Y : Byte) (base : Nat) {r k : Nat} (b : Blit)
    (other : k / 8 ≠ (Y.toNat + r) % 32) :
    updateOf (blitRow X Y base r b).s k = updateOf b.s k := by
  rw [updateOf, (blitRow_keeps X Y base r b).cfg, blitRow_peek, rowMask_other X Y r _ k other, updateOf]
  exact congrArg (Event.byteUpdated k) BitVec.xor_zero

/-- The notifications of all rows, by induction on their number: a row draws on none of the screen rows
of the rows before it, so what those notified still holds. -/
theorem blitRows_events (X Y : Byte) (base : Nat) {n : Nat} (hn : n ≤ 32) (b : Blit) :
    (blitRows X Y base 0 n b).s.events =
      b.s.events ++ (blitOffsets X Y n).map (updateOf (blitRows X Y base 0 n b).s) := by
  induction n with
  | zero => exact (List.append_nil _).symm
  | succ n ih =>
    have earlier : (blitOffsets X Y n).map (updateOf (blitRows X Y base 0 n b).s) =
        (blitOffsets X Y n).map (updateOf (blitRow X Y base n (blitRows X Y base 0 n b)).s) := by
      refine List.map_congr_left fun k hk => (updateOf_blitRow_of_other X Y base _ ?_).symm
      obtain ⟨r, hr, row⟩ := row_of_mem_blitOffsets hk
      omega
    rw [blitRows_last, Nat.zero_add, blitRow_events, ih (by omega), earlier, blitOffsets_succ,
      List.map_append, List.append_assoc]

/-- Settles O33: the draw's events are its rows' events, and VF is no part of them. -/
theorem drawNotifiesEveryDestinationByte : Obligations.DrawNotifiesEveryDestinationByte := by
  intro x y n s t inside run
  cases exec_drw_next (inside.imp_left toNat_eq_zero_of_eq_zero) run
  have cfg := (drawAndFlag_frame (s.getV x) (s.getV y) s.i.toNat n.toNat s).2.1
  rw [← cfg]
  exact blitRows_events (s.getV x) (s.getV y) s.i.toNat (nibble_toNat_le_32 n) ⟨s, false⟩

/-! ## The clear screen -/

/-- Memory after CLS: its event is no part of it (R200). -/
theorem clear_peek (s : State) (a : Nat) :
    ((s.pokes s.cfg.fbBase clearScreen).emit .screenCleared).peek a =
      if s.cfg.fbBase ≤ a ∧ a < s.cfg.fbBase + 256 then 0x00 else s.peek a := by
  rw [State.emit_peek, peek_pokes_clearScreen]

/-- Settles O29: a poke of 256 zeros at the framebuffer, and one event. (The model's own `clearScreen`
has the plain name.) -/
theorem clearScreenByCls : Obligations.ClearScreen := by
  refine fun s => ⟨decodeOfEncodeIsTheInstruction .cls,
    (s.pokes s.cfg.fbBase clearScreen).emit .screenCleared, rfl, fun k hk => ?_, fun a outside => ?_,
    ?_, clear_frame s⟩
  · rw [clear_peek, if_pos (by omega)]
  · rw [clear_peek, if_neg (by omega)]
  · rw [State.emit_events, State.pokes_events]

end Sys2Proof.Machine
end

section
/-! PROOFS. Exceptions: the fault of an instruction and of a tick, what a faulting tick leaves, and
the invariant through the host's moves (R220 to R235). -/

namespace Sys2Proof.Machine

/-! ## Every instruction completes -/

/-- Execute answers a next state for every instruction; only LD Vx, K looks at the state before it
does (R185). -/
theorem exec_completes (ins : Instr) (s : State) : ∃ t, exec ins s = .next t := by
  cases ins
  case ldVxK x =>
    cases key : s.pressedKeyValue with
    | none => exact ⟨_, execLdVxK_released x key⟩
    | some b => exact ⟨_, execLdVxK_pressed x key⟩
  all_goals exact ⟨_, rfl⟩

/-- An instruction to which R220's table assigns no fault completes and keeps the status. -/
theorem exec_of_noFault {ins : Instr} {s : State} (noFault : instrFault ins s = none) :
    ∃ t, exec ins s = .next t ∧ t.status = s.status := by
  obtain ⟨t, run⟩ := exec_completes ins s
  exact ⟨t, run, (exec_update noFault run).frame.1 .status (status_not_mem_mayChange ins)⟩

/-- Settles O39: the fault of R220's table is raised, and without one the status is kept. -/
theorem executeFaultsExactlyAsTheTable : Obligations.ExecuteFaultsExactlyAsTheTable := by
  intro ins s running
  cases hf : instrFault ins s with
  | some f => exact ⟨_, exec_of_instrFault hf, rfl⟩
  | none =>
    obtain ⟨t, run, kept⟩ := exec_of_noFault hf
    exact ⟨t, run, kept.trans running⟩

/-! ## The fault of a tick -/

theorem faultAddress_of_rangeFault {n : Nat} {s : State} {f : Fault} (h : rangeFault n s = some f) :
    faultAddress f = s.instrAddr := by
  unfold rangeFault at h
  split at h <;> cases h
  rfl

/-- A fault of R220's table records the address of the instruction. -/
theorem faultAddress_of_instrFault {ins : Instr} {s : State} {f : Fault}
    (h : instrFault ins s = some f) : faultAddress f = s.instrAddr := by
  cases ins
  case call nnn =>
    rw [instrFault_call] at h
    split at h <;> cases h
    rfl
  case ret =>
    rw [instrFault_ret] at h
    split at h <;> cases h
    rfl
  case storeRegs x => exact faultAddress_of_rangeFault ((instrFault_storeRegs x s).symm.trans h)
  case loadRegs x => exact faultAddress_of_rangeFault ((instrFault_loadRegs x s).symm.trans h)
  case ldB x => exact faultAddress_of_rangeFault ((instrFault_ldB x s).symm.trans h)
  case drw x y n => exact faultAddress_of_rangeFault ((instrFault_drw x y n s).symm.trans h)
  all_goals cases h

/-- While a tick executes, the instruction's address is the address fetched from (R24). -/
theorem executeView_instrAddr (b : Byte) (s : State) : (executeView b s).instrAddr = s.pc :=
  BitVec.add_sub_cancel s.pc 2

/-- The state in which a faulting tick raises its fault: pc is advanced exactly when the fetch
succeeded (R52, R221). -/
def faultView (b : Byte) (s : State) : State :=
  { executeView b s with pc := if 0xFFF < s.pc.toNat + 1 then s.pc else s.pc + 2 }

theorem faultView_of_fetchFails (b : Byte) {s : State} (past : 0xFFF < s.pc.toNat + 1) :
    faultView b s = s.beginTick b := by
  unfold faultView
  rw [if_pos past]
  rfl

theorem faultView_of_fetches (b : Byte) {s : State} (inside : s.pc.toNat + 1 ≤ 0xFFF) :
    faultView b s = executeView b s := by
  unfold faultView
  rw [if_neg (Nat.not_lt_of_le inside)]
  rfl

/-- A faulting tick keeps every part but pc, the status and the events (R221). -/
theorem raise_faultView_same (b : Byte) (s : State) (f : Fault) {p : Part}
    (hp : p ∉ [.pc, .status, .events]) : p.same s ((faultView b s).raise f) := by
  cases p
  case pc | status | events => simp at hp
  case mem | v => exact fun _ => rfl
  case stack => exact ⟨rfl, fun _ => rfl⟩
  all_goals rfl

theorem tickFault_of_fetchFails (b : Byte) {s : State} (past : 0xFFF < s.pc.toNat + 1) :
    tickFault b s = some (.addressOutOfRange s.pc (max s.pc.toNat 4096)) :=
  if_pos past

theorem tickFault_of_illegal (b : Byte) {s : State} {e : DecodeError}
    (inside : s.pc.toNat + 1 ≤ 0xFFF) (illegal : decode (wordAtPc s) = .error e) :
    tickFault b s = some (.decodeError s.pc (wordAtPc s)) := by
  unfold tickFault
  rw [if_neg (Nat.not_lt_of_le inside), illegal]

theorem tickFault_of_decode (b : Byte) {s : State} {ins : Instr} (inside : s.pc.toNat + 1 ≤ 0xFFF)
    (decoded : decode (wordAtPc s) = .ok ins) :
    tickFault b s = instrFault ins (executeView b s) := by
  unfold tickFault
  rw [if_neg (Nat.not_lt_of_le inside), decoded]

/-- A Running tick that fetches a word no instruction has raises DecodeError with pc advanced
(R222). -/
theorem tick_of_illegal (b : Byte) {s : State} {e : DecodeError} (running : s.status = .running)
    (inside : s.pc.toNat + 1 ≤ 0xFFF) (illegal : decode (wordAtPc s) = .error e) :
    tick b s = .next ((executeView b s).raise (.decodeError s.pc (wordAtPc s))) :=
  (tick_fetches b s running inside).trans (runWord_error _ _ _ e illegal)

/-- What a Running tick does about the first fault in R225's order: it raises it, at the address
fetched from, or there is none and the tick ends Running. -/
theorem tick_of_running (b : Byte) {s : State} (running : s.status = .running) :
    (∃ f, tickFault b s = some f ∧ faultAddress f = s.pc ∧
        tick b s = .next ((faultView b s).raise f)) ∨
      (tickFault b s = none ∧ ∃ t, tick b s = .next t ∧ t.status = .running) := by
  by_cases inside : s.pc.toNat + 1 ≤ 0xFFF
  · rw [faultView_of_fetches b inside]
    cases decoded : decode (wordAtPc s) with
    | error e =>
      exact .inl ⟨_, tickFault_of_illegal b inside decoded, rfl,
        tick_of_illegal b running inside decoded⟩
    | ok ins =>
      rw [tickFault_of_decode b inside decoded, tick_of_decode b running inside decoded]
      cases hf : instrFault ins (executeView b s) with
      | some f =>
        exact .inl ⟨f, rfl, (faultAddress_of_instrFault hf).trans (executeView_instrAddr b s),
          congrArg afterExecute (exec_of_instrFault hf)⟩
      | none =>
        obtain ⟨u, run, kept⟩ := exec_of_noFault hf
        exact .inr ⟨rfl, u.endTick, congrArg afterExecute run,
          (State.endTick_status u).trans (kept.trans running)⟩
  · have past : 0xFFF < s.pc.toNat + 1 := Nat.lt_of_not_le inside
    rw [faultView_of_fetchFails b past]
    exact .inl ⟨_, tickFault_of_fetchFails b past, rfl, tick_fetchFails b s running past⟩

/-- Settles O40: a Running tick raises the first fault, or ends Running if there is none. -/
theorem tickReportsTheFirstFault : Obligations.TickReportsTheFirstFault := by
  intro b s running
  obtain ⟨f, fault, -, run⟩ | ⟨noFault, t, run, completed⟩ := tick_of_running b running
  · rw [fault]
    exact ⟨_, run, rfl⟩
  · rw [noFault]
    exact ⟨t, run, completed⟩

/-- Settles O41: a tick that ends Halted has raised its fault in `faultView`. -/
theorem faultsArePrecise : Obligations.FaultsArePrecise := by
  intro b s t f h halted
  obtain ⟨g, -, address, run⟩ | ⟨-, u, run, completed⟩ := tick_of_running b (tick_next_cases h).1
  · cases h.symm.trans run
    cases halted
    exact ⟨address, rfl, rfl, fun _ hp => raise_faultView_same b s f hp, rfl⟩
  · cases h.symm.trans run
    cases halted.symm.trans completed

/-- Settles O37: the word does not decode, so the tick raises DecodeError with pc advanced. -/
theorem illegalWordHalts : Obligations.IllegalWordHalts := by
  intro b s running inside illegal
  have undecoded := (illegalWordsAreThoseThatMatchNoRow (wordAtPc s)).1 illegal
  exact ⟨_, tick_of_illegal b running inside undecoded, rfl, rfl⟩

/-- Settles O38: a step is a tick, and a tick of a Halted block is refused. -/
theorem haltedBlockTakesNoTick : Obligations.HaltedBlockTakesNoTick := fun b f s halted =>
  ⟨tick_halted b s f halted, tick_halted _ { s with rndIndex := s.rndIndex + 1 } f halted⟩

/-! ## A step of a decoded instruction -/

theorem endTick_of_running {u : State} (running : u.status = .running) :
    u.endTick = u.timerUpdate := by
  unfold State.endTick
  rw [running]

/-- Settles O35: the step is a tick of the decoded word, and the timer update counts down unless the
instruction faulted. -/
theorem stepRunsTheDecodedInstruction : Obligations.StepRunsTheDecodedInstruction := by
  intro s t ins running inside decoded run
  have executes : step s = .next t.endTick :=
    (tick_of_decode _ (s := { s with rndIndex := s.rndIndex + 1 }) running inside decoded).trans
      (congrArg afterExecute run)
  rw [executes]
  split
  · rw [endTick_of_running ‹_›]
    rfl
  · rw [endTick_of_halted ‹_›]

/-! ## The invariant through the host's moves -/

theorem poke_inv {a : Nat} (b : Byte) {s : State} (inside : a < 4096) (h : Inv s) :
    Inv (s.poke a b) :=
  pokes_inv a [b] inside h

/-- A ROM that fits is copied inside memory, so a reset leaves the invariant whatever the state was
(R250, R252). -/
theorem hostReset_inv {rom : List Byte} {s t : State} (run : hostReset rom s = .next t) :
    Inv t := by
  unfold hostReset at run
  split at run
  · rename_i fits
    cases run
    have short : rom.length ≤ 3584 := of_decide_eq_true fits
    have loaded : Inv (resetImage s.cfg rom) := pokes_inv 0x200 rom (by omega) (resetWith_inv s.cfg)
    exact loaded.congr rfl rfl rfl rfl rfl
  · cases run

theorem pressKey_inv {v : Byte} {s t : State} (h : Inv s) (run : pressKey v s = .next t) :
    Inv t := by
  obtain ⟨-, ⟨-, flagBelow⟩, ⟨-, valueBelow⟩, -⟩ := config_bounds s.cfg
  unfold pressKey at run
  split at run
  · cases run
    exact poke_inv v (by omega) (poke_inv keyPressed (by omega) h)
  · cases run

theorem releaseKey_inv {s t : State} (h : Inv s) (run : releaseKey s = .next t) : Inv t := by
  obtain ⟨-, ⟨-, flagBelow⟩, -⟩ := config_bounds s.cfg
  cases run
  exact poke_inv keyReleased (by omega) h

/-- Settles O49: each of the four moves keeps the invariant. -/
theorem hostMovesKeepTheInvariant : Obligations.HostMovesKeepTheInvariant := by
  intro m s t h run
  cases m with
  | reset rom => exact hostReset_inv run
  | tick b => exact tick_inv h run
  | pressKey v => exact pressKey_inv h run
  | releaseKey => exact releaseKey_inv h run

end Sys2Proof.Machine
end

section
/-! PROOFS. Reset and hazards: a run's delay timer, the state reset(rom) builds, and the moves that
leave a Halted block halted (R250, R258). -/

namespace Sys2Proof.Machine

/-! ## The delay timer of a run -/

/-- A step that completes and executes no LD DT, Vx counts the delay timer down once (R170). -/
theorem step_dt_of_ne_ldDtVx {s u : State} (run : step s = .next u) (completed : u.status = .running)
    (other : ∀ x, decode (wordAtPc s) ≠ .ok (.ldDtVx x)) : u.dt.toNat = s.dt.toNat - 1 := by
  obtain ⟨ins, decoded, counted, -⟩ := (timersCountEveryTick _ _ _ run).2 completed
  rw [counted]
  split
  · rename_i x
    exact absurd decoded (other x)
  · rfl

/-- Settles O25, by induction on the number of ticks: the first counts once, and the rest count from
what it left. -/
theorem delayTimerAfterManyTicks : Obligations.DelayTimerAfterManyTicks := by
  intro k
  induction k with
  | zero =>
    rintro s t rfl
    rfl
  | succ k ih =>
    rintro s t ⟨u, run, completed, other, rest⟩
    rw [ih u t rest, step_dt_of_ne_ldDtVx run completed other, Nat.sub_sub, Nat.add_comm 1 k]

/-! ## The memory reset(rom) builds -/

/-- The font lies below the ROM, which the copy of the ROM keeps (R250). -/
theorem resetImage_peek_font (c : Config) (rom : List Byte) (k : Fin 80) :
    (resetImage c rom).peek k.val = c.font[k] :=
  (State.peek_pokes_outside 0x200 rom _ k.val (.inl (by omega))).trans (resetWith_peek_font c k)

/-- The ROM is copied verbatim from 0x200 (R250). -/
theorem resetImage_peek_rom (c : Config) (rom : List Byte) (k : Fin rom.length) :
    (resetImage c rom).peek (0x200 + k.val) = rom[k] := by
  have copied : 0x200 ≤ 0x200 + k.val ∧ 0x200 + k.val < 0x200 + rom.length := by omega
  unfold resetImage
  rw [State.peek_pokes, dif_pos copied]
  simp

/-- Past the font, a byte to which no ROM byte is copied is zero (R250). -/
theorem resetImage_peek_zero (c : Config) (rom : List Byte) {a : Nat} (pastFont : 80 ≤ a)
    (outside : a < 0x200 ∨ 0x200 + rom.length ≤ a) : (resetImage c rom).peek a = 0 :=
  (State.peek_pokes_outside 0x200 rom _ a outside).trans (resetWith_peek_zero c pastFont)

/-- A ROM that fits is accepted: reset builds its image, and the counter of the free random bytes goes
on (R250, R252). -/
theorem hostReset_of_length_le {rom : List Byte} (s : State) (fits : rom.length ≤ 3584) :
    hostReset rom s = .next { resetImage s.cfg rom with rndIndex := s.rndIndex } :=
  if_pos (decide_eq_true fits)

/-! ## The moves that keep the status -/

/-- Pressing a key leaves the status as it is, Halted included (R186). -/
theorem pressKey_status {v : Byte} {s t : State} (run : pressKey v s = .next t) :
    t.status = s.status := by
  unfold pressKey at run
  split at run <;> cases run
  rfl

/-- Releasing the key leaves the status as it is, Halted included (R187). -/
theorem releaseKey_status {s t : State} (run : releaseKey s = .next t) : t.status = s.status := by
  cases run
  rfl

/-- The only move that takes a Halted block to Running is a reset: a tick is refused, and the key
moves keep the status (R228, R233). -/
theorem eq_reset_of_leaves_halted {m : HostMove} {s t : State} (halted : s.status ≠ .running)
    (run : hostMove m s = .next t) (completed : t.status = .running) : ∃ rom, m = .reset rom := by
  cases m with
  | reset rom => exact ⟨rom, rfl⟩
  | tick b => exact absurd (tick_next_cases run).1 halted
  | pressKey v => exact absurd ((pressKey_status run).symm.trans completed) halted
  | releaseKey => exact absurd ((releaseKey_status run).symm.trans completed) halted

/-- Settles O44: the registers, timers and slots are those of `resetWith`, memory is its image with
the ROM, and no move but reset leaves Halted. -/
theorem resetBuildsTheInitialState : Obligations.ResetBuildsTheInitialState := fun s =>
  ⟨fun rom fits => ⟨_, hostReset_of_length_le s fits, rfl, resetWith_getV s.cfg, rfl, rfl, rfl, rfl,
      resetWith_stack s.cfg, rfl, rfl, resetImage_peek_font s.cfg rom, resetImage_peek_rom s.cfg rom,
      fun _ pastFont outside => resetImage_peek_zero s.cfg rom pastFont outside⟩,
    fun _ _ halted run completed => eq_reset_of_leaves_halted halted run completed⟩

end Sys2Proof.Machine
end

section
/-! PROOFS. The spec's example words: six are encodings of the instructions they stand for, and one
matches no row of the opcode map. -/

namespace Sys2Proof

/-- The decoder is the inverse of the encoder: a word decodes to an instruction exactly when it is the
instruction's encoding (R73, R79). -/
theorem decode_eq_ok_iff {w : Word} {ins : Instr} : decode w = .ok ins ↔ encode ins = w := by
  constructor
  · exact encodeOfDecodeIsTheWord w ins
  · rintro rfl
    exact decodeOfEncodeIsTheInstruction ins

/-- Settles O1: each legal word is the encoding of its instruction, and 0x0000 matches no row. -/
theorem specExampleWordsDecode : Obligations.SpecExampleWordsDecode := by
  have illegal : legalWord 0x0000 = false := by decide
  exact ⟨decode_eq_ok_iff.mpr rfl, decode_eq_ok_iff.mpr rfl, decode_eq_ok_iff.mpr rfl,
    (illegalWordsAreThoseThatMatchNoRow 0x0000).1 illegal, decode_eq_ok_iff.mpr rfl,
    decode_eq_ok_iff.mpr rfl, decode_eq_ok_iff.mpr rfl⟩

end Sys2Proof
end
